-- ==== Sys2Proof/Word.lean ====
section
/-! DEFINITION. The word types of the block: byte, limb, 256-bit vector, 512-bit wide value, command word, and the
register indices (00_scope.md R7, R8, R12; 30_encoding.md R70 to R72, R80). -/
namespace Sys2Proof

/-- One byte of the buffer (20_memory.md R50). -/
abbrev Byte := BitVec 8
/-- A limb: an unsigned 64-bit word (30_encoding.md R70). -/
abbrev Limb := BitVec 64
/-- A 256-bit limb vector as its value; limb k is bits 64k+63 : 64k (00_scope.md R12, 30_encoding.md R71). -/
abbrev Vec := BitVec 256
/-- A 512-bit limb vector as its value (30_encoding.md R72). -/
abbrev Wide := BitVec 512
/-- A command word (30_encoding.md R80). -/
abbrev CmdWord := BitVec 32

/-- Index of a 256-bit register v0 .. v15 (10_state.md R21). -/
abbrev VReg := Fin 16
/-- Index of a 512-bit register w0 .. w15 (10_state.md R22). -/
abbrev WReg := Fin 16
/-- Index of a 64-bit register x0 .. x15 (10_state.md R23). -/
abbrev XReg := Fin 16
/-- The `off` field: a buffer address 0 .. 255 (30_encoding.md R84). -/
abbrev Off := Fin 256
/-- The `len` field: 7 bits, the byte count itself (30_encoding.md R84). -/
abbrev Len := Fin 128

end Sys2Proof
end

