-- ==== Sys2Proof/Syntax.lean ====
section
/-! DEFINITION. The 23 commands (30_encoding.md R85, R90) and the host's moves (20_memory.md R60). -/
namespace Sys2Proof

/-- One constructor per row of the opcode table; operands in the order of the signatures of 30_encoding.md R90. -/
inductive Instr where
  | mmul (vd va vb vm : VReg) (xn : XReg)
  | msqr (vd va vm : VReg) (xn : XReg)
  | mred (vd : VReg) (wa : WReg) (vm : VReg) (xn : XReg)
  | mfrom (vd va vm : VReg) (xn : XReg)
  | madd (vd va vb vm : VReg)
  | msub (vd va vb vm : VReg)
  | isz (xd xa : XReg)
  | visz (xd : XReg) (va : VReg)
  | wisz (xd : XReg) (wa : WReg)
  | veq (xd : XReg) (va vb : VReg)
  | weq (xd : XReg) (wa wb : WReg)
  | vcpy (vd va : VReg)
  | wcpy (wd wa : WReg)
  | vzero (vd : VReg)
  | wzero (wd : WReg)
  | vldbe (vd : VReg) (off : Off) (len : Len)
  | vstbe (va : VReg) (off : Off) (len : Len)
  | vldle (vd : VReg) (off : Off) (len : Len)
  | vstle (va : VReg) (off : Off) (len : Len)
  | wldbe (wd : WReg) (off : Off) (len : Len)
  | wstbe (wa : WReg) (off : Off) (len : Len)
  | wldle (wd : WReg) (off : Off) (len : Len)
  | wstle (wa : WReg) (off : Off) (len : Len)
  deriving DecidableEq, Repr

/-- The host's moves (20_memory.md R60). An address or index out of range is not a move, so the types admit none
(log 14). -/
inductive Move where
  | issue (c : CmdWord)
  | writeB (a : Fin 256) (b : Byte)
  | readB (a : Fin 256)
  | writeX (i : XReg) (w : Limb)
  | readX (i : XReg)
  | readStatus
  | reset
  deriving DecidableEq, Repr

/-- What a reading move gives the host back (20_memory.md R60, last column). -/
inductive Answer where
  | byte (b : Byte)
  | word (w : Limb)
  | status (s : BitVec 32)
  deriving DecidableEq, Repr

end Sys2Proof
end

