-- ==== Sys2Proof/WellFormed.lean ====
section
/-! DEFINITION. Which commands are well formed. Register numbers need no check (30_encoding.md R86: every index 0..15 is
legal); a conversion's byte count and range do (41_byte_conversions.md R131). -/
namespace Sys2Proof

/-- 41_byte_conversions.md R131: `1 ≤ len ≤ MAXLEN` and `off + len ≤ 256`. -/
def conversionWellFormed (maxLen off len : Nat) : Bool :=
  decide (1 ≤ len ∧ len ≤ maxLen ∧ off + len ≤ 256)

def Instr.wellFormed : Instr → Bool
  | .mmul _ _ _ _ _ => true
  | .msqr _ _ _ _ => true
  | .mred _ _ _ _ => true
  | .mfrom _ _ _ _ => true
  | .madd _ _ _ _ => true
  | .msub _ _ _ _ => true
  | .isz _ _ => true
  | .visz _ _ => true
  | .wisz _ _ => true
  | .veq _ _ _ => true
  | .weq _ _ _ => true
  | .vcpy _ _ => true
  | .wcpy _ _ => true
  | .vzero _ => true
  | .wzero _ => true
  | .vldbe _ off len => conversionWellFormed 32 off len
  | .vstbe _ off len => conversionWellFormed 32 off len
  | .vldle _ off len => conversionWellFormed 32 off len
  | .vstle _ off len => conversionWellFormed 32 off len
  | .wldbe _ off len => conversionWellFormed 64 off len
  | .wstbe _ off len => conversionWellFormed 64 off len
  | .wldle _ off len => conversionWellFormed 64 off len
  | .wstle _ off len => conversionWellFormed 64 off len

end Sys2Proof
end

