-- ==== Sys2Proof/Decode.lean ====
section
/-! DEFINITION. Decoding a command word, total on all 2^32 words and rejecting by name (30_encoding.md R80 to R89), and
the encoder, written from the same format tables. -/
namespace Sys2Proof

/-- The 23 assigned opcodes (30_encoding.md R85). -/
inductive Opcode where
  | mmul | msqr | mred | mfrom | madd | msub
  | isz | visz | wisz | veq | weq | vcpy | wcpy | vzero | wzero
  | vldbe | vstbe | vldle | vstle | wldbe | wstbe | wldle | wstle
  deriving DecidableEq, Repr

/-- Why a word is illegal: the three conditions of 30_encoding.md R86. The block records none of this (R192); the names
are for the reader (log 13). -/
inductive DecodeError where
  /-- Condition 1: bits 31:24 are none of the 23 opcodes. -/
  | unassignedOpcode
  /-- Condition 2: a `zero` bit or an unused register field is not 0. -/
  | reservedNotZero
  /-- Condition 3: `len` is 0 or above the register's width, or `off + len > 256`. -/
  | badRange
  deriving DecidableEq, Repr

/-- `c[hi:lo]`, an unsigned integer (00_scope.md R11). -/
def field (c : CmdWord) (hi lo : Nat) : Nat := c.toNat / 2 ^ lo % 2 ^ (hi + 1 - lo)

/-- Bits 31:24 of each command (30_encoding.md R85). -/
def Opcode.code : Opcode → Nat
  | .mmul => 0x10 | .msqr => 0x11 | .mred => 0x12 | .mfrom => 0x13 | .madd => 0x14 | .msub => 0x15
  | .isz => 0x20 | .visz => 0x21 | .wisz => 0x22 | .veq => 0x23 | .weq => 0x24
  | .vcpy => 0x25 | .wcpy => 0x26 | .vzero => 0x27 | .wzero => 0x28
  | .vldbe => 0x30 | .vstbe => 0x31 | .vldle => 0x32 | .vstle => 0x33
  | .wldbe => 0x34 | .wstbe => 0x35 | .wldle => 0x36 | .wstle => 0x37

/-- The 23 assigned opcodes, in the table's order. -/
def Opcode.all : List Opcode :=
  [.mmul, .msqr, .mred, .mfrom, .madd, .msub, .isz, .visz, .wisz, .veq, .weq, .vcpy, .wcpy, .vzero, .wzero,
   .vldbe, .vstbe, .vldle, .vstle, .wldbe, .wstbe, .wldle, .wstle]

/-- The command an opcode value stands for, none for the 233 unassigned values (30_encoding.md R87). -/
def Opcode.ofCode (n : Nat) : Option Opcode := Opcode.all.find? (fun o => o.code == n)

/-- The fields that must be 0: those the format calls `zero` and the register fields the command does not use
(30_encoding.md R82, R83, R84, R86 condition 2). -/
def Opcode.zeroFields : Opcode → List (Nat × Nat)
  | .mmul => [(3, 0)]
  | .msqr | .mred | .mfrom => [(15, 12), (3, 0)]
  | .madd | .msub => [(7, 4), (3, 0)]
  | .isz | .visz | .wisz | .vcpy | .wcpy => [(15, 12), (11, 0)]
  | .veq | .weq => [(11, 0)]
  | .vzero | .wzero => [(19, 16), (15, 12), (11, 0)]
  | .vldbe | .vstbe | .vldle | .vstle | .wldbe | .wstbe | .wldle | .wstle => [(4, 0)]

/-- The largest `len` of a format-C command (30_encoding.md R86 condition 3). -/
def Opcode.maxLen : Opcode → Option Nat
  | .vldbe | .vstbe | .vldle | .vstle => some 32
  | .wldbe | .wstbe | .wldle | .wstle => some 64
  | .mmul | .msqr | .mred | .mfrom | .madd | .msub => none
  | .isz | .visz | .wisz | .veq | .weq | .vcpy | .wcpy | .vzero | .wzero => none

/-- 30_encoding.md R86 condition 3. -/
def lengthLegal (maxLen off len : Nat) : Bool := 1 ≤ len && len ≤ maxLen && off + len ≤ 256

/-- 30_encoding.md R86 condition 2 of a word. -/
def Opcode.zerosOk (o : Opcode) (c : CmdWord) : Bool := o.zeroFields.all (fun f => field c f.1 f.2 == 0)

/-- 30_encoding.md R86 condition 3 of a word: `off` is bits 19:12 and `len` bits 11:5 (R84). -/
def Opcode.rangeOk (o : Opcode) (c : CmdWord) : Bool :=
  match o.maxLen with
  | none => true
  | some n => lengthLegal n (field c 19 12) (field c 11 5)

/-- A 4-bit register field, a plain index (30_encoding.md R88). -/
def regField (c : CmdWord) (hi lo : Nat) : Fin 16 := Fin.ofNat 16 (field c hi lo)
def rdOf (c : CmdWord) : Fin 16 := regField c 23 20
def raOf (c : CmdWord) : Fin 16 := regField c 19 16
def rbOf (c : CmdWord) : Fin 16 := regField c 15 12
def rmOf (c : CmdWord) : Fin 16 := regField c 11 8
def xnOf (c : CmdWord) : Fin 16 := regField c 7 4
def offOf (c : CmdWord) : Off := Fin.ofNat 256 (field c 19 12)
def lenOf (c : CmdWord) : Len := Fin.ofNat 128 (field c 11 5)

/-- The command with its fields (30_encoding.md R82 to R84, R89 step 4). -/
def Opcode.operands (o : Opcode) (c : CmdWord) : Instr :=
  match o with
  | .mmul => .mmul (rdOf c) (raOf c) (rbOf c) (rmOf c) (xnOf c)
  | .msqr => .msqr (rdOf c) (raOf c) (rmOf c) (xnOf c)
  | .mred => .mred (rdOf c) (raOf c) (rmOf c) (xnOf c)
  | .mfrom => .mfrom (rdOf c) (raOf c) (rmOf c) (xnOf c)
  | .madd => .madd (rdOf c) (raOf c) (rbOf c) (rmOf c)
  | .msub => .msub (rdOf c) (raOf c) (rbOf c) (rmOf c)
  | .isz => .isz (rdOf c) (raOf c)
  | .visz => .visz (rdOf c) (raOf c)
  | .wisz => .wisz (rdOf c) (raOf c)
  | .veq => .veq (rdOf c) (raOf c) (rbOf c)
  | .weq => .weq (rdOf c) (raOf c) (rbOf c)
  | .vcpy => .vcpy (rdOf c) (raOf c)
  | .wcpy => .wcpy (rdOf c) (raOf c)
  | .vzero => .vzero (rdOf c)
  | .wzero => .wzero (rdOf c)
  | .vldbe => .vldbe (rdOf c) (offOf c) (lenOf c)
  | .vstbe => .vstbe (rdOf c) (offOf c) (lenOf c)
  | .vldle => .vldle (rdOf c) (offOf c) (lenOf c)
  | .vstle => .vstle (rdOf c) (offOf c) (lenOf c)
  | .wldbe => .wldbe (rdOf c) (offOf c) (lenOf c)
  | .wstbe => .wstbe (rdOf c) (offOf c) (lenOf c)
  | .wldle => .wldle (rdOf c) (offOf c) (lenOf c)
  | .wstle => .wstle (rdOf c) (offOf c) (lenOf c)

/-- Decoding, in the order of 30_encoding.md R89; it reads nothing but the word. -/
def decode (c : CmdWord) : Except DecodeError Instr :=
  match Opcode.ofCode (field c 31 24) with
  | none => .error .unassignedOpcode
  | some o =>
    if o.zerosOk c = false then .error .reservedNotZero
    else if o.rangeOk c = false then .error .badRange
    else .ok (o.operands c)

/-- What the decoder reads from a word of `nbits` bits numbered as the opcode table numbers them; the bits above
`nbits` are 0, and a number that does not fit the block's 32-bit word is none (log 12). -/
def decodeTableWord (nbits w : Nat) : Option Instr :=
  let c := w % 2 ^ nbits
  if c < 2 ^ 32 then
    match decode (BitVec.ofNat 32 c) with
    | .ok i => some i
    | .error _ => none
  else none

/-- A format-M word (30_encoding.md R82). -/
def wordM (op : Opcode) (rd ra rb rm xn : Nat) : CmdWord :=
  BitVec.ofNat 32 (op.code * 2 ^ 24 + rd * 2 ^ 20 + ra * 2 ^ 16 + rb * 2 ^ 12 + rm * 2 ^ 8 + xn * 2 ^ 4)
/-- A format-P word (30_encoding.md R83). -/
def wordP (op : Opcode) (rd ra rb : Nat) : CmdWord :=
  BitVec.ofNat 32 (op.code * 2 ^ 24 + rd * 2 ^ 20 + ra * 2 ^ 16 + rb * 2 ^ 12)
/-- A format-C word (30_encoding.md R84). -/
def wordC (op : Opcode) (r off len : Nat) : CmdWord :=
  BitVec.ofNat 32 (op.code * 2 ^ 24 + r * 2 ^ 20 + off * 2 ^ 12 + len * 2 ^ 5)

/-- The word of a command; unused fields are 0 (30_encoding.md R82 to R85). -/
def encode : Instr → CmdWord
  | .mmul vd va vb vm xn => wordM .mmul vd va vb vm xn
  | .msqr vd va vm xn => wordM .msqr vd va 0 vm xn
  | .mred vd wa vm xn => wordM .mred vd wa 0 vm xn
  | .mfrom vd va vm xn => wordM .mfrom vd va 0 vm xn
  | .madd vd va vb vm => wordM .madd vd va vb vm 0
  | .msub vd va vb vm => wordM .msub vd va vb vm 0
  | .isz xd xa => wordP .isz xd xa 0
  | .visz xd va => wordP .visz xd va 0
  | .wisz xd wa => wordP .wisz xd wa 0
  | .veq xd va vb => wordP .veq xd va vb
  | .weq xd wa wb => wordP .weq xd wa wb
  | .vcpy vd va => wordP .vcpy vd va 0
  | .wcpy wd wa => wordP .wcpy wd wa 0
  | .vzero vd => wordP .vzero vd 0 0
  | .wzero wd => wordP .wzero wd 0 0
  | .vldbe vd off len => wordC .vldbe vd off len
  | .vstbe va off len => wordC .vstbe va off len
  | .vldle vd off len => wordC .vldle vd off len
  | .vstle va off len => wordC .vstle va off len
  | .wldbe wd off len => wordC .wldbe wd off len
  | .wstbe wa off len => wordC .wstbe wa off len
  | .wldle wd off len => wordC .wldle wd off len
  | .wstle wa off len => wordC .wstle wa off len

/-- The match and mask columns of the table of 30_encoding.md R86: a second form of conditions 1 and 2, which claims
compare with the decoder. -/
def Opcode.row : Opcode → CmdWord × CmdWord
  | .mmul => (0x10000000, 0xFF00000F)
  | .msqr => (0x11000000, 0xFF00F00F)
  | .mred => (0x12000000, 0xFF00F00F)
  | .mfrom => (0x13000000, 0xFF00F00F)
  | .madd => (0x14000000, 0xFF0000FF)
  | .msub => (0x15000000, 0xFF0000FF)
  | .isz => (0x20000000, 0xFF00FFFF)
  | .visz => (0x21000000, 0xFF00FFFF)
  | .wisz => (0x22000000, 0xFF00FFFF)
  | .veq => (0x23000000, 0xFF000FFF)
  | .weq => (0x24000000, 0xFF000FFF)
  | .vcpy => (0x25000000, 0xFF00FFFF)
  | .wcpy => (0x26000000, 0xFF00FFFF)
  | .vzero => (0x27000000, 0xFF0FFFFF)
  | .wzero => (0x28000000, 0xFF0FFFFF)
  | .vldbe => (0x30000000, 0xFF00001F)
  | .vstbe => (0x31000000, 0xFF00001F)
  | .vldle => (0x32000000, 0xFF00001F)
  | .vstle => (0x33000000, 0xFF00001F)
  | .wldbe => (0x34000000, 0xFF00001F)
  | .wstbe => (0x35000000, 0xFF00001F)
  | .wldle => (0x36000000, 0xFF00001F)
  | .wstle => (0x37000000, 0xFF00001F)

/-- The opcode of a command. -/
def Instr.opcode : Instr → Opcode
  | .mmul _ _ _ _ _ => .mmul
  | .msqr _ _ _ _ => .msqr
  | .mred _ _ _ _ => .mred
  | .mfrom _ _ _ _ => .mfrom
  | .madd _ _ _ _ => .madd
  | .msub _ _ _ _ => .msub
  | .isz _ _ => .isz
  | .visz _ _ => .visz
  | .wisz _ _ => .wisz
  | .veq _ _ _ => .veq
  | .weq _ _ _ => .weq
  | .vcpy _ _ => .vcpy
  | .wcpy _ _ => .wcpy
  | .vzero _ => .vzero
  | .wzero _ => .wzero
  | .vldbe _ _ _ => .vldbe
  | .vstbe _ _ _ => .vstbe
  | .vldle _ _ _ => .vldle
  | .vstle _ _ _ => .vstle
  | .wldbe _ _ _ => .wldbe
  | .wstbe _ _ _ => .wstbe
  | .wldle _ _ _ => .wldle
  | .wstle _ _ _ => .wstle

end Sys2Proof
end

