-- ==== Sys2Proof/Config.lean ====
section
/-! DEFINITION. What the spec fixes by decision (00_scope.md R8) and what it leaves open (00_scope.md R9): the open
parameters are constants with no body, so that no proof can use a value of theirs. -/
namespace Sys2Proof

/-- BUFSZ: bytes in the buffer B (00_scope.md R8). -/
@[simp] abbrev Config.bufSize : Nat := 256
/-- MAXLEN_V: largest byte count of a V conversion (00_scope.md R8). -/
@[simp] abbrev Config.maxLenV : Nat := 32
/-- MAXLEN_W: largest byte count of a W conversion (00_scope.md R8). -/
@[simp] abbrev Config.maxLenW : Nat := 64

/-- RESET_IMAGE.V: the value of V[i] after the reset number `draw` (00_scope.md R9, 10_state.md R35; log 5). -/
opaque Config.resetV (draw : Nat) (i : VReg) : Vec
/-- RESET_IMAGE.W (10_state.md R35; log 5). -/
opaque Config.resetW (draw : Nat) (i : WReg) : Wide
/-- RESET_IMAGE.X (10_state.md R35; log 5). -/
opaque Config.resetX (draw : Nat) (i : XReg) : Limb
/-- RESET_IMAGE.B (10_state.md R35; log 5). -/
opaque Config.resetB (draw : Nat) (a : Nat) : Byte

/-- OOD_MMUL(a, b, m, n0): what MMUL, and MSQR with b = a, writes out of domain (42_montgomery_engine.md R154; log 7). -/
opaque Config.oodMmul (a b m : Vec) (n0 : Limb) : Vec
/-- OOD_MRED(T, m, n0) (42_montgomery_engine.md R154; log 7). -/
opaque Config.oodMred (T : Wide) (m : Vec) (n0 : Limb) : Vec
/-- OOD_MFROM(a, m, n0) (42_montgomery_engine.md R154; log 7). -/
opaque Config.oodMfrom (a m : Vec) (n0 : Limb) : Vec
/-- OOD_MADD(a, b, m) (42_montgomery_engine.md R154; log 7). -/
opaque Config.oodMadd (a b m : Vec) : Vec
/-- OOD_MSUB(a, b, m) (42_montgomery_engine.md R154; log 7). -/
opaque Config.oodMsub (a b m : Vec) : Vec

/-- LAT(op, len) less one, so that `Config.lat` is positive whatever this is (70_reset_and_hazards.md R222; log 10). -/
opaque Config.extraCycles (op len : Nat) : Nat
/-- LAT(op, len): the latency in clock cycles, a positive integer (70_reset_and_hazards.md R222; log 10). -/
def Config.lat (op len : Nat) : Nat := Config.extraCycles op len + 1

end Sys2Proof
end

