-- ==== Sys2Proof/Machine/State.lean ====
section
/-! DEFINITION. The state of the block (10_state.md R20) with the model's own input, output and draw counter beside it,
the state right after reset (R35), and the reasons a step can stop. -/
namespace Sys2Proof.Machine

/-- The byte buffer B as cells (address, byte). Its one form is `Memory.wf` (Machine/Ops.lean): the 256 addresses of
20_memory.md R50 in rising order, each with its byte; an address that is not listed does not exist (log 6). -/
abbrev Memory := List Host.Cell

/-- Why the machine stops with a fault. -/
inductive Fault where
  /-- Raised by a buffer read or write at an address that has no cell: the spec says that no such address exists
  (20_memory.md R50). Safe: no step of a state with a well-formed buffer raises it (log 6). -/
  | noSuchAddress
  deriving DecidableEq, Repr

/-- Why the model gives no meaning. -/
inductive Refusal where
  /-- An instruction that is not modelled yet; raised by no arm of exec. Safe: the model stops. -/
  | notModelled (mnemonic : String)
  deriving DecidableEq, Repr

/-- The state tuple of 10_state.md R20 (v, w, x, b, ill) and the model's own fields (moves, answers, draws). -/
structure State where
  /-- V[0..15] (10_state.md R21). -/
  v : Vector Vec 16
  /-- W[0..15] (10_state.md R22). -/
  w : Vector Wide 16
  /-- X[0..15] (10_state.md R23). -/
  x : Vector Limb 16
  /-- B[0..255] (10_state.md R26). -/
  b : Memory
  /-- STATUS.ILL, the one implemented bit of STATUS (10_state.md R28). -/
  ill : Bool
  /-- The model's own: the host's moves still to be made, the next one first (log 1). -/
  moves : List Move
  /-- The model's own: what the host has got back, the oldest first (log 4). -/
  answers : List Answer
  /-- The model's own: how many reset images have been drawn; the next Reset takes the image of this number (log 5). -/
  draws : Nat
  deriving DecidableEq, Repr

/-- RESET_IMAGE.B of the draw `d`, all 256 bytes (10_state.md R35, 70_reset_and_hazards.md R210). -/
def Memory.image (d : Nat) : Memory := (List.range 256).map (fun a => (a, Config.resetB d a))

/-- The machine right after reset (10_state.md R35): ILL is 0, the storage is the reset image number 0. -/
def State.reset : State where
  v := Vector.ofFn (Config.resetV 0)
  w := Vector.ofFn (Config.resetW 0)
  x := Vector.ofFn (Config.resetX 0)
  b := Memory.image 0
  ill := false
  moves := []
  answers := []
  draws := 1

/-- The three outcomes of a step of this machine. -/
abbrev Result := Host.Outcome State Fault Refusal

end Sys2Proof.Machine
end

