-- ==== Sys2Proof/Machine/Ops.lean ====
section
/-! DEFINITION. The named operations over the registers, the status and the buffer (00_scope.md R13), the illegal-command
fault (60_exceptions.md R192) and the way out of it, Reset (70_reset_and_hazards.md R210). -/
namespace Sys2Proof.Machine

/-- `V[i]`. -/
def State.readV (s : State) (i : VReg) : Vec := s.v.get i
/-- `V[i] <- a`: all four limbs are written. -/
def State.writeV (s : State) (i : VReg) (a : Vec) : State := { s with v := s.v.set i.val a i.isLt }
/-- `W[i]`. -/
def State.readW (s : State) (i : WReg) : Wide := s.w.get i
/-- `W[i] <- a`: all eight limbs are written. -/
def State.writeW (s : State) (i : WReg) (a : Wide) : State := { s with w := s.w.set i.val a i.isLt }
/-- `X[i]`. -/
def State.readX (s : State) (i : XReg) : Limb := s.x.get i
/-- `X[i] <- a`. -/
def State.writeX (s : State) (i : XReg) (a : Limb) : State := { s with x := s.x.set i.val a i.isLt }

/-- STATUS as the host reads it: bit 0 is ILL, bits 31:1 are zero (10_state.md R28, 20_memory.md R60). -/
def State.status (s : State) : BitVec 32 := if s.ill then 1 else 0

/-- The buffer's one form: exactly the addresses 0 .. 255, each listed once, in rising order (20_memory.md R50; log 6). -/
abbrev Memory.wf (m : Memory) : Prop := m.map Prod.fst = List.range 256

/-- `B[a]`; none at an address that has no cell. -/
def Memory.read : Memory → Nat → Option Byte
  | [], _ => none
  | c :: m, a => if c.1 = a then some c.2 else Memory.read m a

/-- `B[a] <- b`; none at an address that has no cell. -/
def Memory.write : Memory → Nat → Byte → Option Memory
  | [], _, _ => none
  | c :: m, a, b => if c.1 = a then some ((a, b) :: m) else (Memory.write m a b).map (c :: ·)

/-- `MemRead(addr, n)`: the n bytes from `addr` on, in ascending order (00_scope.md R13). -/
def Memory.readBytes (m : Memory) (addr : Nat) : Nat → Option (List Byte)
  | 0 => some []
  | n + 1 =>
    match m.read addr, Memory.readBytes m (addr + 1) n with
    | some b, some bs => some (b :: bs)
    | _, _ => none

/-- `MemWrite(addr, n, s)`: the bytes of `s` from `addr` on, in ascending order (00_scope.md R13). -/
def Memory.writeBytes (m : Memory) (addr : Nat) : List Byte → Option Memory
  | [] => some m
  | b :: bs =>
    match m.write addr b with
    | some m' => Memory.writeBytes m' (addr + 1) bs
    | none => none

/-- `raise Illegal`: STATUS.ILL <- 1 and nothing else (60_exceptions.md R192, R195). -/
def raiseIllegal (s : State) : Result := .next { s with ill := true }

/-- `Reset()`, the only way out of the frozen state (70_reset_and_hazards.md R210, R211): ILL is cleared and all storage
takes a freshly drawn image. The host's remaining moves and what it has read are its own and stay. -/
def resetMove (s : State) : Result :=
  .next
    { s with
      v := Vector.ofFn (Config.resetV s.draws)
      w := Vector.ofFn (Config.resetW s.draws)
      x := Vector.ofFn (Config.resetX s.draws)
      b := Memory.image s.draws
      ill := false
      draws := s.draws + 1 }

end Sys2Proof.Machine
end

