-- ==== Sys2Proof/Machine/Operands.lean ====
section
/-! DEFINITION. The operand forms: limbs of a register (00_scope.md R12), byte sequences as integers (30_encoding.md R75 to
R77), the buffer operand of a conversion (41_byte_conversions.md R131, R140, R141) and the conditions under which an
engine command is in domain (42_montgomery_engine.md R151). -/
namespace Sys2Proof.Machine

/-- Limb k of a 256-bit vector, k = 0 least significant (30_encoding.md R71). -/
def limbV (a : Vec) (k : Nat) : Limb := a.extractLsb' (64 * k) 64
/-- Limb k of a 512-bit vector (30_encoding.md R72). -/
def limbW (a : Wide) (k : Nat) : Limb := a.extractLsb' (64 * k) 64
/-- `val` of a limb sequence, least significant first (00_scope.md R12). -/
def limbsVal : List Limb → Nat
  | [] => 0
  | l :: ls => l.toNat + 2 ^ 64 * limbsVal ls

/-- `be_val(s)`: byte 0 is the most significant (30_encoding.md R75). -/
def beVal : List Byte → Nat
  | [] => 0
  | b :: bs => b.toNat * 256 ^ bs.length + beVal bs
/-- `le_val(s)`: byte 0 is the least significant (30_encoding.md R76). -/
def leVal : List Byte → Nat
  | [] => 0
  | b :: bs => b.toNat + 256 * leVal bs
/-- `be_bytes(v, n)`: byte j is `(v div 256^(n-1-j)) mod 256` (00_scope.md R13). -/
def beBytes (v : Nat) : Nat → List Byte
  | 0 => []
  | n + 1 => BitVec.ofNat 8 (v / 256 ^ n) :: beBytes v n
/-- `le_bytes(v, n)`: byte j is `(v div 256^j) mod 256` (00_scope.md R13). -/
def leBytes (v : Nat) : Nat → List Byte
  | 0 => []
  | n + 1 => BitVec.ofNat 8 v :: leBytes (v / 256) n

/-- A load into a V register of the integer that `val` reads from the bytes: zero-extended to the whole register, not
reduced (41_byte_conversions.md R131, R140, R142). A form the encoding does not admit raises Illegal (R131; log 8). -/
def loadV (val : List Byte → Nat) (vd : VReg) (off len : Nat) (s : State) : Result :=
  if lengthLegal Config.maxLenV off len then
    match s.b.readBytes off len with
    | some bs => .next (s.writeV vd (BitVec.ofNat 256 (val bs)))
    | none => .fault .noSuchAddress
  else raiseIllegal s

/-- The same into a W register. -/
def loadW (val : List Byte → Nat) (wd : WReg) (off len : Nat) (s : State) : Result :=
  if lengthLegal Config.maxLenW off len then
    match s.b.readBytes off len with
    | some bs => .next (s.writeW wd (BitVec.ofNat 512 (val bs)))
    | none => .fault .noSuchAddress
  else raiseIllegal s

/-- A store of the `len` least significant bytes of an integer, laid out by `bytes` (41_byte_conversions.md R131, R141). -/
def storeBytes (maxLen : Nat) (bytes : Nat → Nat → List Byte) (value : Nat) (off len : Nat) (s : State) : Result :=
  if lengthLegal maxLen off len then
    match s.b.writeBytes off (bytes (value % 256 ^ len) len) with
    | some m => .next { s with b := m }
    | none => .fault .noSuchAddress
  else raiseIllegal s

/-- P-ODD: m is odd and m ≥ 3 (42_montgomery_engine.md R151). -/
def pOdd (m : Nat) : Bool := m % 2 == 1 && 3 ≤ m
/-- P-N0: `(m · n0) mod 2^64 = 2^64 - 1` (42_montgomery_engine.md R151, 30_encoding.md R79). -/
def pN0 (m n0 : Nat) : Bool := m * n0 % 2 ^ 64 == 2 ^ 64 - 1
/-- P-A and P-B: the operand is below m (42_montgomery_engine.md R151). -/
def pBelow (a m : Nat) : Bool := a < m
/-- P-T: `T < m · 2^256` (42_montgomery_engine.md R151, R161). -/
def pT (T m : Nat) : Bool := T < m * 2 ^ 256

/-- MMUL is in domain (42_montgomery_engine.md R151). -/
def inDomainMul (a b m : Vec) (n0 : Limb) : Bool :=
  pOdd m.toNat && pN0 m.toNat n0.toNat && pBelow a.toNat m.toNat && pBelow b.toNat m.toNat
/-- MSQR and MFROM are in domain (42_montgomery_engine.md R151). -/
def inDomainOne (a m : Vec) (n0 : Limb) : Bool :=
  pOdd m.toNat && pN0 m.toNat n0.toNat && pBelow a.toNat m.toNat
/-- MRED is in domain (42_montgomery_engine.md R151). -/
def inDomainRed (T : Wide) (m : Vec) (n0 : Limb) : Bool :=
  pOdd m.toNat && pN0 m.toNat n0.toNat && pT T.toNat m.toNat
/-- MADD and MSUB are in domain (42_montgomery_engine.md R151). -/
def inDomainAdd (a b m : Vec) : Bool :=
  pOdd m.toNat && pBelow a.toNat m.toNat && pBelow b.toNat m.toNat

end Sys2Proof.Machine
end

