-- ==== Sys2Proof/Machine/Conversions.lean ====
section
/-! DEFINITION. The byte conversions (41_byte_conversions.md R132 to R139). -/
namespace Sys2Proof.Machine

/-- VLDBE vd, off, len (R132). -/
def execVldbe (vd : VReg) (off : Off) (len : Len) (s : State) : Result := loadV beVal vd off len s
/-- VSTBE va, off, len (R133). -/
def execVstbe (va : VReg) (off : Off) (len : Len) (s : State) : Result :=
  storeBytes Config.maxLenV beBytes (s.readV va).toNat off len s
/-- VLDLE vd, off, len (R134). -/
def execVldle (vd : VReg) (off : Off) (len : Len) (s : State) : Result := loadV leVal vd off len s
/-- VSTLE va, off, len (R135). -/
def execVstle (va : VReg) (off : Off) (len : Len) (s : State) : Result :=
  storeBytes Config.maxLenV leBytes (s.readV va).toNat off len s
/-- WLDBE wd, off, len (R136). -/
def execWldbe (wd : WReg) (off : Off) (len : Len) (s : State) : Result := loadW beVal wd off len s
/-- WSTBE wa, off, len (R137). -/
def execWstbe (wa : WReg) (off : Off) (len : Len) (s : State) : Result :=
  storeBytes Config.maxLenW beBytes (s.readW wa).toNat off len s
/-- WLDLE wd, off, len (R138). -/
def execWldle (wd : WReg) (off : Off) (len : Len) (s : State) : Result := loadW leVal wd off len s
/-- WSTLE wa, off, len (R139). -/
def execWstle (wa : WReg) (off : Off) (len : Len) (s : State) : Result :=
  storeBytes Config.maxLenW leBytes (s.readW wa).toNat off len s

end Sys2Proof.Machine
end

