-- ==== Sys2Proof/Machine/Engine.lean ====
section
/-! DEFINITION. The Montgomery modular engine (42_montgomery_engine.md). In domain each command writes the mathematical
result; out of domain it writes the open function's value and nothing else changes (R154). -/
namespace Sys2Proof.Machine

/-- `Rinv`, the inverse of 2^256 modulo an odd m (42_montgomery_engine.md, opening text; log 9): `(m + 1) / 2` is the
inverse of 2, and its 256th power that of 2^256. -/
def rInv (m : Nat) : Nat := ((m + 1) / 2) ^ 256 % m

/-- The value MMUL writes (42_montgomery_engine.md R155). -/
def mulValue (a b m : Vec) (n0 : Limb) : Vec :=
  if inDomainMul a b m n0 then BitVec.ofNat 256 (a.toNat * b.toNat * rInv m.toNat % m.toNat)
  else Config.oodMmul a b m n0
/-- The value MSQR writes (42_montgomery_engine.md R158; out of domain OOD_MMUL(a, a, m, n0), R159). -/
def sqrValue (a m : Vec) (n0 : Limb) : Vec :=
  if inDomainOne a m n0 then BitVec.ofNat 256 (a.toNat * a.toNat * rInv m.toNat % m.toNat)
  else Config.oodMmul a a m n0
/-- The value MRED writes (42_montgomery_engine.md R160). -/
def redValue (T : Wide) (m : Vec) (n0 : Limb) : Vec :=
  if inDomainRed T m n0 then BitVec.ofNat 256 (T.toNat * rInv m.toNat % m.toNat)
  else Config.oodMred T m n0
/-- The value MFROM writes (42_montgomery_engine.md R163). -/
def fromValue (a m : Vec) (n0 : Limb) : Vec :=
  if inDomainOne a m n0 then BitVec.ofNat 256 (a.toNat * rInv m.toNat % m.toNat)
  else Config.oodMfrom a m n0
/-- The value MADD writes (42_montgomery_engine.md R166). -/
def addValue (a b m : Vec) : Vec :=
  if inDomainAdd a b m then BitVec.ofNat 256 ((a.toNat + b.toNat) % m.toNat)
  else Config.oodMadd a b m
/-- The value MSUB writes, `(a - b) mod m` (42_montgomery_engine.md R170). In domain b < m, so `a + m - b` is exact. -/
def subValue (a b m : Vec) : Vec :=
  if inDomainAdd a b m then BitVec.ofNat 256 ((a.toNat + m.toNat - b.toNat) % m.toNat)
  else Config.oodMsub a b m

/-- MMUL vd, va, vb, vm, xn (42_montgomery_engine.md R155). -/
def execMmul (vd va vb vm : VReg) (xn : XReg) (s : State) : Result :=
  .next (s.writeV vd (mulValue (s.readV va) (s.readV vb) (s.readV vm) (s.readX xn)))
/-- MSQR vd, va, vm, xn (42_montgomery_engine.md R158). -/
def execMsqr (vd va vm : VReg) (xn : XReg) (s : State) : Result :=
  .next (s.writeV vd (sqrValue (s.readV va) (s.readV vm) (s.readX xn)))
/-- MRED vd, wa, vm, xn (42_montgomery_engine.md R160). -/
def execMred (vd : VReg) (wa : WReg) (vm : VReg) (xn : XReg) (s : State) : Result :=
  .next (s.writeV vd (redValue (s.readW wa) (s.readV vm) (s.readX xn)))
/-- MFROM vd, va, vm, xn (42_montgomery_engine.md R163). -/
def execMfrom (vd va vm : VReg) (xn : XReg) (s : State) : Result :=
  .next (s.writeV vd (fromValue (s.readV va) (s.readV vm) (s.readX xn)))
/-- MADD vd, va, vb, vm (42_montgomery_engine.md R166). -/
def execMadd (vd va vb vm : VReg) (s : State) : Result :=
  .next (s.writeV vd (addValue (s.readV va) (s.readV vb) (s.readV vm)))
/-- MSUB vd, va, vb, vm (42_montgomery_engine.md R170). -/
def execMsub (vd va vb vm : VReg) (s : State) : Result :=
  .next (s.writeV vd (subValue (s.readV va) (s.readV vb) (s.readV vm)))

end Sys2Proof.Machine
end

