-- ==== Sys2Proof/Machine/Flags.lean ====
section
/-! DEFINITION. Boolean results (30_encoding.md R73, 40_ct_primitives.md R101), the zero and equality testers, which gather
every limb and never stop early (R102, R105 to R108), and the select mask of 30_encoding.md R74. -/
namespace Sys2Proof.Machine

/-- `flag(c)`: the 64-bit word 1 if c holds, else 0 (00_scope.md R13). -/
def flag (c : Bool) : Limb := if c then 1 else 0

/-- `is_zero(word)` (40_ct_primitives.md R104). -/
def isZero (l : Limb) : Limb := flag (l == 0)

/-- The branch-free form that 40_ct_primitives.md R104 gives as informative. -/
def isZeroBitwise (l : Limb) : Limb := (~~~l &&& (l - 1)) >>> 63

/-- The OR of all four limbs (40_ct_primitives.md R105). -/
def orLimbsV (a : Vec) : Limb := [0, 1, 2, 3].foldl (fun acc i => acc ||| limbV a i) 0
/-- The OR of all eight limbs (40_ct_primitives.md R106). -/
def orLimbsW (a : Wide) : Limb := [0, 1, 2, 3, 4, 5, 6, 7].foldl (fun acc i => acc ||| limbW a i) 0
/-- The limb differences, formed by XOR and gathered by OR (40_ct_primitives.md R107, 90_conflicts.md C8). -/
def diffLimbsV (a b : Vec) : Limb := [0, 1, 2, 3].foldl (fun acc i => acc ||| (limbV a i ^^^ limbV b i)) 0
/-- The same over eight limbs (40_ct_primitives.md R108). -/
def diffLimbsW (a b : Wide) : Limb :=
  [0, 1, 2, 3, 4, 5, 6, 7].foldl (fun acc i => acc ||| (limbW a i ^^^ limbW b i)) 0

/-- `vector_is_zero`, 256-bit (40_ct_primitives.md R105). -/
def vecIsZero (a : Vec) : Limb := isZero (orLimbsV a)
/-- `vector_is_zero`, 512-bit (40_ct_primitives.md R106). -/
def wideIsZero (a : Wide) : Limb := isZero (orLimbsW a)
/-- `vector_is_equal`, 256-bit (40_ct_primitives.md R107). -/
def vecIsEqual (a b : Vec) : Limb := isZero (diffLimbsV a b)
/-- `vector_is_equal`, 512-bit (40_ct_primitives.md R108). -/
def wideIsEqual (a b : Wide) : Limb := isZero (diffLimbsW a b)

/-- The select mask of a condition: all-zero or all-one bits, `(0 - f) mod 2^n` for the flag f (30_encoding.md R74). -/
def selectMask (n : Nat) (c : Bool) : BitVec n := 0 - BitVec.ofNat n c.toNat
/-- `(mask & a) | (~mask & b)` (30_encoding.md R74). -/
def select {n : Nat} (mask a b : BitVec n) : BitVec n := (mask &&& a) ||| (~~~mask &&& b)

end Sys2Proof.Machine
end

