-- ==== Sys2Proof/Machine/Primitives.lean ====
section
/-! DEFINITION. The constant-time primitives (40_ct_primitives.md R104 to R112). -/
namespace Sys2Proof.Machine

/-- ISZ xd, xa (R104). -/
def execIsz (xd xa : XReg) (s : State) : Result := .next (s.writeX xd (isZero (s.readX xa)))
/-- VISZ xd, va (R105). -/
def execVisz (xd : XReg) (va : VReg) (s : State) : Result := .next (s.writeX xd (vecIsZero (s.readV va)))
/-- WISZ xd, wa (R106). -/
def execWisz (xd : XReg) (wa : WReg) (s : State) : Result := .next (s.writeX xd (wideIsZero (s.readW wa)))
/-- VEQ xd, va, vb (R107). -/
def execVeq (xd : XReg) (va vb : VReg) (s : State) : Result :=
  .next (s.writeX xd (vecIsEqual (s.readV va) (s.readV vb)))
/-- WEQ xd, wa, wb (R108). -/
def execWeq (xd : XReg) (wa wb : WReg) (s : State) : Result :=
  .next (s.writeX xd (wideIsEqual (s.readW wa) (s.readW wb)))
/-- VCPY vd, va (R109). -/
def execVcpy (vd va : VReg) (s : State) : Result := .next (s.writeV vd (s.readV va))
/-- WCPY wd, wa (R110). -/
def execWcpy (wd wa : WReg) (s : State) : Result := .next (s.writeW wd (s.readW wa))
/-- VZERO vd (R111): written whatever the register holds (R118). -/
def execVzero (vd : VReg) (s : State) : Result := .next (s.writeV vd 0)
/-- WZERO wd (R112): written whatever the register holds (R118). -/
def execWzero (wd : WReg) (s : State) : Result := .next (s.writeW wd 0)

end Sys2Proof.Machine
end

