-- ==== Sys2Proof/Machine/Dispatch.lean ====
section
/-! DEFINITION. One arm per command. -/
namespace Sys2Proof.Machine

def exec (i : Instr) (s : State) : Host.Outcome State Fault Refusal :=
  match i with
  | .mmul vd va vb vm xn => Sys2Proof.Machine.execMmul vd va vb vm xn s
  | .msqr vd va vm xn => Sys2Proof.Machine.execMsqr vd va vm xn s
  | .mred vd wa vm xn => Sys2Proof.Machine.execMred vd wa vm xn s
  | .mfrom vd va vm xn => Sys2Proof.Machine.execMfrom vd va vm xn s
  | .madd vd va vb vm => Sys2Proof.Machine.execMadd vd va vb vm s
  | .msub vd va vb vm => Sys2Proof.Machine.execMsub vd va vb vm s
  | .isz xd xa => Sys2Proof.Machine.execIsz xd xa s
  | .visz xd va => Sys2Proof.Machine.execVisz xd va s
  | .wisz xd wa => Sys2Proof.Machine.execWisz xd wa s
  | .veq xd va vb => Sys2Proof.Machine.execVeq xd va vb s
  | .weq xd wa wb => Sys2Proof.Machine.execWeq xd wa wb s
  | .vcpy vd va => Sys2Proof.Machine.execVcpy vd va s
  | .wcpy wd wa => Sys2Proof.Machine.execWcpy wd wa s
  | .vzero vd => Sys2Proof.Machine.execVzero vd s
  | .wzero wd => Sys2Proof.Machine.execWzero wd s
  | .vldbe vd off len => Sys2Proof.Machine.execVldbe vd off len s
  | .vstbe va off len => Sys2Proof.Machine.execVstbe va off len s
  | .vldle vd off len => Sys2Proof.Machine.execVldle vd off len s
  | .vstle va off len => Sys2Proof.Machine.execVstle va off len s
  | .wldbe wd off len => Sys2Proof.Machine.execWldbe wd off len s
  | .wstbe wa off len => Sys2Proof.Machine.execWstbe wa off len s
  | .wldle wd off len => Sys2Proof.Machine.execWldle wd off len s
  | .wstle wa off len => Sys2Proof.Machine.execWstle wa off len s

end Sys2Proof.Machine
end

