-- ==== Sys2Proof/Machine/Moves.lean ====
section
/-! DEFINITION. The host's moves (20_memory.md R60, 60_exceptions.md R192, R193) as operations on the state. -/
namespace Sys2Proof.Machine

/-- The host gets `a` back: it joins what the host has read so far (log 4). -/
def State.give (s : State) (a : Answer) : State := { s with answers := s.answers ++ [a] }

/-- `Issue(c)`: nothing if the block is frozen; the illegal-command fault if c is illegal; else the command is performed
by `run` (20_memory.md R60, 60_exceptions.md R192, R193). -/
def issueMove (run : Instr → State → Result) (c : CmdWord) (s : State) : Result :=
  if s.ill then .next s
  else
    match decode c with
    | .ok i => run i s
    | .error _ => raiseIllegal s

/-- `HostWriteB(a, b)`: served frozen or not. -/
def writeBMove (a : Nat) (b : Byte) (s : State) : Result :=
  match s.b.write a b with
  | some m => .next { s with b := m }
  | none => .fault .noSuchAddress

/-- `HostReadB(a)`: served frozen or not; no side effect on the block. -/
def readBMove (a : Nat) (s : State) : Result :=
  match s.b.read a with
  | some b => .next (s.give (.byte b))
  | none => .fault .noSuchAddress

/-- `HostWriteX(i, w)`: served frozen or not. -/
def writeXMove (i : XReg) (w : Limb) (s : State) : Result := .next (s.writeX i w)
/-- `HostReadX(i)`. -/
def readXMove (i : XReg) (s : State) : Result := .next (s.give (.word (s.readX i)))
/-- `HostReadStatus()`. -/
def readStatusMove (s : State) : Result := .next (s.give (.status s.status))

/-- The effect of one host move (20_memory.md R60). -/
def makeMove (run : Instr → State → Result) (mv : Move) (s : State) : Result :=
  match mv with
  | .issue c => issueMove run c s
  | .writeB a b => writeBMove a b s
  | .readB a => readBMove a s
  | .writeX i w => writeXMove i w s
  | .readX i => readXMove i s
  | .readStatus => readStatusMove s
  | .reset => resetMove s

/-- One step: the host makes its next move (20_memory.md R61, R63). With no move left the run has ended
(70_reset_and_hazards.md R223) and the block waits unchanged (log 3). -/
def stepWith (run : Instr → State → Result) (s : State) : Result :=
  match s.moves with
  | [] => .next s
  | mv :: rest => makeMove run mv { s with moves := rest }

/-- The host's next move becomes `Issue` of the word `c`. -/
def State.issueNext (s : State) (c : CmdWord) : State := { s with moves := .issue c :: s.moves }

end Sys2Proof.Machine
end

