-- ==== Sys2Proof/Machine/Step.lean ====
section
/-! DEFINITION. The step of the machine: one host move, an issued command being performed by exec. -/
namespace Sys2Proof.Machine

def step (s : State) : Host.Outcome State Fault Refusal := Sys2Proof.Machine.stepWith Sys2Proof.Machine.exec s

/-- The state in which the host's very next move issues the word `w` of `nbits` bits (the bits above `nbits` are 0). The
block has no fetch (10_state.md R27): a command reaches it by `Issue` (20_memory.md R60; log 2, log 12). -/
def State.withFetchWord (s : State) (nbits w : Nat) : State := s.issueNext (BitVec.ofNat 32 (w % 2 ^ nbits))

end Sys2Proof.Machine
end

