-- ==== Sys2Proof/Machine/Asm.lean ====
section
/-! DEFINITION. The assembler notation of 30_encoding.md R90 to R92: one line of text becomes the host moves it stands for.
The block knows nothing of it (R92); log 19 lists what the rules leave open about the text. -/
namespace Sys2Proof.Machine.Asm

/-- Drops blanks at both ends. -/
def trim (l : List Char) : List Char :=
  ((l.dropWhile (· == ' ')).reverse.dropWhile (· == ' ')).reverse

/-- The pieces of a text between the separators `sep`; structural on the text. -/
def pieces (sep : Char) : List Char → List (List Char)
  | [] => [[]]
  | c :: cs =>
    if c == sep then [] :: pieces sep cs
    else
      match pieces sep cs with
      | p :: ps => (c :: p) :: ps
      | [] => [[c]]

/-- The value of a decimal or hexadecimal digit. -/
def digit (base : Nat) (c : Char) : Option Nat :=
  let n := c.toNat
  let d := if 48 ≤ n ∧ n ≤ 57 then n - 48 else if 65 ≤ n ∧ n ≤ 70 then n - 55 else if 97 ≤ n ∧ n ≤ 102 then n - 87 else 99
  if d < base then some d else none

def digits (base : Nat) (acc : Nat) : List Char → Option Nat
  | [] => some acc
  | c :: cs => (digit base c).bind (fun d => digits base (acc * base + d) cs)

/-- An unsigned number, decimal or `0x` hexadecimal (R90). -/
def number : List Char → Option Nat
  | [] => none
  | '0' :: 'x' :: c :: cs => digits 16 0 (c :: cs)
  | c :: cs => digits 10 0 (c :: cs)

/-- `v0`..`v15`, `w0`..`w15`, `x0`..`x15`: the letter must be the file the position asks for (R90). -/
def register (file : Char) : List Char → Option (Fin 16)
  | [] => none
  | c :: cs =>
    if c == file then (List.finRange 16).find? (fun n => Nat.toDigits 10 n.val == cs) else none

def offset (l : List Char) : Option Off :=
  (number l).bind (fun n => if h : n < 256 then some ⟨n, h⟩ else none)
def count (l : List Char) : Option Len :=
  (number l).bind (fun n => if h : n < 128 then some ⟨n, h⟩ else none)

/-- The operands of a conversion; an omitted length is the full width (R91). -/
def conversion (mk : Fin 16 → Off → Len → Instr) (file : Char) (full : Len) : List (List Char) → Option Instr
  | [r, o] => (register file r).bind fun r => (offset o).bind fun o => some (mk r o full)
  | [r, o, n] => (register file r).bind fun r => (offset o).bind fun o => (count n).bind fun n => some (mk r o n)
  | _ => none

/-- Two to five register operands, each of its own file. -/
def registers : List Char → List (List Char) → Option (List (Fin 16))
  | [], [] => some []
  | f :: fs, l :: ls => (register f l).bind fun r => (registers fs ls).bind fun rs => some (r :: rs)
  | _, _ => none

/-- The commands whose operands are registers: the signatures of R90, and MTO, which is MMUL (R92). -/
def registerCommands : List (String × String × (List (Fin 16) → Option Instr)) :=
  [("MMUL", "vvvvx", fun | [d, a, b, m, n] => some (.mmul d a b m n) | _ => none),
   ("MTO", "vvvvx", fun | [d, a, r2, m, n] => some (.mmul d a r2 m n) | _ => none),
   ("MSQR", "vvvx", fun | [d, a, m, n] => some (.msqr d a m n) | _ => none),
   ("MRED", "vwvx", fun | [d, a, m, n] => some (.mred d a m n) | _ => none),
   ("MFROM", "vvvx", fun | [d, a, m, n] => some (.mfrom d a m n) | _ => none),
   ("MADD", "vvvv", fun | [d, a, b, m] => some (.madd d a b m) | _ => none),
   ("MSUB", "vvvv", fun | [d, a, b, m] => some (.msub d a b m) | _ => none),
   ("ISZ", "xx", fun | [d, a] => some (.isz d a) | _ => none),
   ("VISZ", "xv", fun | [d, a] => some (.visz d a) | _ => none),
   ("WISZ", "xw", fun | [d, a] => some (.wisz d a) | _ => none),
   ("VEQ", "xvv", fun | [d, a, b] => some (.veq d a b) | _ => none),
   ("WEQ", "xww", fun | [d, a, b] => some (.weq d a b) | _ => none),
   ("VCPY", "vv", fun | [d, a] => some (.vcpy d a) | _ => none),
   ("WCPY", "ww", fun | [d, a] => some (.wcpy d a) | _ => none),
   ("VZERO", "v", fun | [d] => some (.vzero d) | _ => none),
   ("WZERO", "w", fun | [d] => some (.wzero d) | _ => none)]

/-- The conversions: file letter, full width (R90, R91). -/
def conversionCommands : List (String × Char × Len × (Fin 16 → Off → Len → Instr)) :=
  [("VLDBE", 'v', 32, .vldbe), ("VSTBE", 'v', 32, .vstbe), ("VLDLE", 'v', 32, .vldle), ("VSTLE", 'v', 32, .vstle),
   ("WLDBE", 'w', 64, .wldbe), ("WSTBE", 'w', 64, .wstbe), ("WLDLE", 'w', 64, .wldle), ("WSTLE", 'w', 64, .wstle)]

/-- The command a mnemonic and its operands stand for. -/
def command (name : List Char) (ops : List (List Char)) : Option Instr :=
  match registerCommands.find? (fun c => c.1.toList == name) with
  | some c => (registers c.2.1.toList ops).bind c.2.2
  | none =>
    match conversionCommands.find? (fun c => c.1.toList == name) with
    | some c => conversion c.2.2.2 c.2.1 c.2.2.1 ops
    | none => none

/-- Two-digit hexadecimal bytes, as HWRB lists them (R92). -/
def hexByte (l : List Char) : Option Byte :=
  match l with
  | [_, _] => (digits 16 0 l).map (BitVec.ofNat 8)
  | _ => none

/-- `HostWriteB(off, b0)`, `HostWriteB(off+1, b1)`, … (R92); none past the end of the buffer. -/
def writeRun (off : Nat) : List Byte → Option (List Move)
  | [] => some []
  | b :: bs => if h : off < 256 then (writeRun (off + 1) bs).map (.writeB ⟨off, h⟩ b :: ·) else none

/-- `HostReadB(off..off+n-1)` (R92). -/
def readRun (off : Nat) : Nat → Option (List Move)
  | 0 => some []
  | n + 1 => if h : off < 256 then (readRun (off + 1) n).map (.readB ⟨off, h⟩ :: ·) else none

/-- The host-move notations of R92. HWRB with no byte and HRDB of no bytes, lines the rule does not show, stand for no move,
whatever their offset: DESIGN CHOICE, log 21. -/
def hostMoves (name : List Char) (ops : List (List Char)) : Option (List Move) :=
  match ops with
  | [] =>
    if name == "HRDS".toList then some [.readStatus]
    else if name == "Reset".toList then some [.reset]
    else none
  | [a] => if name == "HRDX".toList then (register 'x' a).map (fun i => [.readX i]) else none
  | [a, b] =>
    if name == "HWRX".toList then
      (register 'x' a).bind fun i => (number b).bind fun n => if n < 2 ^ 64 then some [.writeX i (BitVec.ofNat 64 n)] else none
    else if name == "HWRB".toList then
      (number a).bind fun o => (((pieces ' ' b).filter (· ≠ [])).mapM hexByte).bind (writeRun o)
    else if name == "HRDB".toList then (number a).bind fun o => (number b).bind (readRun o)
    else none
  | _ => none

/-- The moves of one line: a command is issued as its word; the rest are the host's own notations. A line that is blank or
only a comment stands for no move; a line that is none of the rules' is an assembly error, none. The rules do not say what becomes of a conversion line whose
offset and length, given or by default, make no legal word: it is an assembly error too, DESIGN CHOICE, log 20. -/
def assembleLine (line : String) : Option (List Move) :=
  let code := trim (line.toList.takeWhile (· != ';'))
  let name := code.takeWhile (· != ' ')
  let rest := trim (code.dropWhile (· != ' '))
  let ops := if rest = [] then [] else (pieces ',' rest).map trim
  if code = [] then some []
  else
    match command name ops with
    | some i => if i.wellFormed then some [.issue (encode i)] else none
    | none => hostMoves name ops

/-- A program text, one line after the other. -/
def assemble : List String → Option (List Move)
  | [] => some []
  | l :: ls => (assembleLine l).bind fun ms => (assemble ls).map (ms ++ ·)

end Sys2Proof.Machine.Asm
end

