-- ==== Sys2Proof/Machine/Datapath.lean ====
section
/-! DEFINITION. The computations the spec describes inside the engine: the word-serial reduction of
42_montgomery_engine.md R153 with its one masked final subtraction (R157), the 257-bit sum of MADD (R166, R167) and the
borrow of MSUB (R170, R171). No meaning calls them: they are not observable in domain (R153), and claims compare the
meanings with them. -/
namespace Sys2Proof.Machine

/-- The multiplier q of step i: one limb (R153). -/
def redcQ (n0 T i : Nat) : Nat := T / 2 ^ (64 * i) % 2 ^ 64 * n0 % 2 ^ 64
/-- One step of the reduction loop: it makes limb i of T zero (R153). -/
def redcStep (m n0 T i : Nat) : Nat := T + redcQ n0 T i * m * 2 ^ (64 * i)
/-- The four steps (R153). -/
def redcLoop (T m n0 : Nat) : Nat :=
  redcStep m n0 (redcStep m n0 (redcStep m n0 (redcStep m n0 T 0) 1) 2) 3
/-- REDC(T, m, n0): the four steps, the division by 2^256, and the masked final subtraction on 257 bits (R153, R157). -/
def redc (T : Nat) (m : Vec) (n0 : Limb) : Vec :=
  let t := BitVec.ofNat 257 (redcLoop T m.toNat n0.toNat / 2 ^ 256)
  let m' := m.setWidth 257
  (select (selectMask 257 (decide (m' ≤ t))) (t - m') t).setWidth 256

/-- The source's modular addition: a 257-bit sum, then a masked subtraction of m (R166, R167). -/
def addDatapath (a b m : Vec) : Vec :=
  let sum := a.setWidth 257 + b.setWidth 257
  let m' := m.setWidth 257
  (select (selectMask 257 (decide (m' ≤ sum))) (sum - m') sum).setWidth 256

/-- The borrow out of `a - b` (R171). -/
def borrow (a b : Vec) : Bool := decide (a < b)
/-- The source's modular subtraction: a 256-bit difference, then a masked addition of m (R170, R171). -/
def subDatapath (a b m : Vec) : Vec :=
  (a - b) + select (selectMask 256 (borrow a b)) m 0

/-- One step of the Newton iteration for the inverse of limb 0 of m (42_montgomery_engine.md R152, informative). -/
def newtonStep (m0 y : Limb) : Limb := y * (2 - m0 * y)
/-- n0 as a host can compute it: six steps from 1, negated (42_montgomery_engine.md R152). -/
def newtonN0 (m : Vec) : Limb := 0 - Nat.iterate (newtonStep (limbV m 0)) 6 1

end Sys2Proof.Machine
end

