-- ==== Sys2Proof/Machine/Trace.lean ====
section
/-! DEFINITION. The trace of a command word, legal or illegal (70_reset_and_hazards.md R221): its latency (R222) and which
registers and buffer addresses it reads and writes, in order (10_state.md R25, 20_memory.md R58). It is a function of the
word alone: no state is an argument of it. -/
namespace Sys2Proof.Machine

/-- A piece of the block's state that a command can read or write: the columns of the table of 10_state.md R25, and
STATUS, which R25 names above the table. -/
inductive Place where
  | v (i : VReg)
  | w (i : WReg)
  | x (i : XReg)
  | b (a : Nat)
  | status
  deriving DecidableEq, Repr

/-- What a place holds, as a number; none for a byte that does not exist. -/
def State.look (s : State) : Place → Option Nat
  | .v i => some (s.readV i).toNat
  | .w i => some (s.readW i).toNat
  | .x i => some (s.readX i).toNat
  | .b a => (s.b.read a).map BitVec.toNat
  | .status => some s.status.toNat

/-- The buffer addresses of a conversion, ascending (41_byte_conversions.md R131). -/
def bufferRange (off len : Nat) : List Place := (List.range len).map (fun j => .b (off + j))

/-- What a command reads of V, W, X and B (the table of 10_state.md R25), in the order of its rule's pseudocode. -/
def reads : Instr → List Place
  | .mmul _ va vb vm xn => [.v va, .v vb, .v vm, .x xn]
  | .msqr _ va vm xn => [.v va, .v vm, .x xn]
  | .mred _ wa vm xn => [.w wa, .v vm, .x xn]
  | .mfrom _ va vm xn => [.v va, .v vm, .x xn]
  | .madd _ va vb vm => [.v va, .v vb, .v vm]
  | .msub _ va vb vm => [.v va, .v vb, .v vm]
  | .isz _ xa => [.x xa]
  | .visz _ va => [.v va]
  | .wisz _ wa => [.w wa]
  | .veq _ va vb => [.v va, .v vb]
  | .weq _ wa wb => [.w wa, .w wb]
  | .vcpy _ va => [.v va]
  | .wcpy _ wa => [.w wa]
  | .vzero _ => []
  | .wzero _ => []
  | .vldbe _ off len => bufferRange off len
  | .vstbe va _ _ => [.v va]
  | .vldle _ off len => bufferRange off len
  | .vstle va _ _ => [.v va]
  | .wldbe _ off len => bufferRange off len
  | .wstbe wa _ _ => [.w wa]
  | .wldle _ off len => bufferRange off len
  | .wstle wa _ _ => [.w wa]

/-- What a legal command writes (the table of 10_state.md R25): never STATUS. -/
def writes : Instr → List Place
  | .mmul vd _ _ _ _ => [.v vd]
  | .msqr vd _ _ _ => [.v vd]
  | .mred vd _ _ _ => [.v vd]
  | .mfrom vd _ _ _ => [.v vd]
  | .madd vd _ _ _ => [.v vd]
  | .msub vd _ _ _ => [.v vd]
  | .isz xd _ => [.x xd]
  | .visz xd _ => [.x xd]
  | .wisz xd _ => [.x xd]
  | .veq xd _ _ => [.x xd]
  | .weq xd _ _ => [.x xd]
  | .vcpy vd _ => [.v vd]
  | .wcpy wd _ => [.w wd]
  | .vzero vd => [.v vd]
  | .wzero wd => [.w wd]
  | .vldbe vd _ _ => [.v vd]
  | .vstbe _ off len => bufferRange off len
  | .vldle vd _ _ => [.v vd]
  | .vstle _ off len => bufferRange off len
  | .wldbe wd _ _ => [.w wd]
  | .wstbe _ off len => bufferRange off len
  | .wldle wd _ _ => [.w wd]
  | .wstle _ off len => bufferRange off len

structure Trace where
  latency : Nat
  reads : List Place
  writes : List Place
  deriving DecidableEq, Repr

/-- The `len` of LAT(op, len): the field of a conversion's word, 0 for every other word (70_reset_and_hazards.md R222). -/
def latencyLength (c : CmdWord) : Nat :=
  match (Opcode.ofCode (field c 31 24)).bind Opcode.maxLen with
  | some _ => field c 11 5
  | none => 0

/-- The trace of the command word `c`, issued to a block that is not frozen (70_reset_and_hazards.md R221, R222; log 10,
log 17). Every command reads STATUS.ILL (10_state.md R25); a legal one then reads and writes what its row says, and an
illegal one, a command too (00_scope.md R17), reads nothing more and writes STATUS.ILL (60_exceptions.md R192, R194). -/
def traceOf (c : CmdWord) : Trace :=
  let latency := Config.lat (field c 31 24) (latencyLength c)
  match decode c with
  | .ok i => { latency := latency, reads := .status :: reads i, writes := writes i }
  | .error _ => { latency := latency, reads := [.status], writes := [.status] }

end Sys2Proof.Machine
end

