-- ==== Sys2Proof/Safety.lean ====
section
/-! DEFINITION. The terms in which claims are stated: what a command may change, the invariant of the state, when a run
ended well (70_reset_and_hazards.md R223) and when a word is legal by the table of 30_encoding.md R86. -/
namespace Sys2Proof

open Sys2Proof.Machine

/-- `t` is `s` but for what the places `ps` hold: every other register and every other byte of the buffer, ILL (with it
the whole STATUS register) and the model's own fields are as in `s` (10_state.md R25). -/
structure ChangesOnly (ps : List Place) (s t : State) : Prop where
  v : ∀ i, Place.v i ∉ ps → t.readV i = s.readV i
  w : ∀ i, Place.w i ∉ ps → t.readW i = s.readW i
  x : ∀ i, Place.x i ∉ ps → t.readX i = s.readX i
  b : ∀ a, Place.b a ∉ ps → t.b.read a = s.b.read a
  ill : t.ill = s.ill
  moves : t.moves = s.moves
  answers : t.answers = s.answers
  draws : t.draws = s.draws

/-- The invariant of the state: the buffer has its one form, exactly the 256 bytes of 20_memory.md R50. -/
abbrev BufferFormed (s : State) : Prop := s.b.wf

/-- A run ended well iff STATUS.ILL = 0 (70_reset_and_hazards.md R223). -/
abbrev EndedWell (s : State) : Prop := s.ill = false

/-- 30_encoding.md R86, conditions 1 and 2 in their `c & mask = match` form and condition 3, for some row of the table. -/
abbrev LegalByTable (c : CmdWord) : Prop :=
  ∃ o ∈ Opcode.all, c &&& o.row.2 = o.row.1 ∧
    ∀ n ∈ o.maxLen,
      1 ≤ (c.extractLsb' 5 7).toNat ∧ (c.extractLsb' 5 7).toNat ≤ n ∧
        (c.extractLsb' 12 8).toNat + (c.extractLsb' 5 7).toNat ≤ 256

/-- Every word that the moves issue is legal: decidable from the words alone (60_exceptions.md R193). -/
def allLegal (ms : List Move) : Bool :=
  ms.all fun mv =>
    match mv with
    | .issue c =>
      match decode c with
      | .ok _ => true
      | .error _ => false
    | .writeB _ _ => true
    | .readB _ => true
    | .writeX _ _ => true
    | .readX _ => true
    | .readStatus => true
    | .reset => true

/-- What a run of legal words keeps: the buffer's form, ILL = 0, and that every word still to be issued is legal. -/
abbrev OnLegalRun (s : State) : Prop := BufferFormed s ∧ s.ill = false ∧ allLegal s.moves = true

/-- `mf(x) = (x · 2^256) mod m`, the Montgomery form of x (30_encoding.md R78). -/
def montForm (x m : Nat) : Nat := x * 2 ^ 256 % m

/-- m and n0 form a pair the engine can use: P-ODD and P-N0 (42_montgomery_engine.md R151). -/
abbrev ModulusOk (m : Vec) (n0 : Limb) : Prop :=
  m.toNat % 2 = 1 ∧ 3 ≤ m.toNat ∧ m.toNat * n0.toNat % 2 ^ 64 = 2 ^ 64 - 1

/-- MMUL's operands are in domain: P-ODD, P-N0, P-A, P-B (42_montgomery_engine.md R151). -/
abbrev MulDomain (a b m : Vec) (n0 : Limb) : Prop := ModulusOk m n0 ∧ a.toNat < m.toNat ∧ b.toNat < m.toNat
/-- MSQR's and MFROM's operands are in domain: P-ODD, P-N0, P-A (R151). -/
abbrev OneDomain (a m : Vec) (n0 : Limb) : Prop := ModulusOk m n0 ∧ a.toNat < m.toNat
/-- MRED's operands are in domain: P-ODD, P-N0, P-T (R151). -/
abbrev RedDomain (T : Wide) (m : Vec) (n0 : Limb) : Prop := ModulusOk m n0 ∧ T.toNat < m.toNat * 2 ^ 256
/-- MADD's and MSUB's operands are in domain: P-ODD, P-A, P-B (R151). -/
abbrev AddDomain (a b m : Vec) : Prop :=
  (m.toNat % 2 = 1 ∧ 3 ≤ m.toNat) ∧ a.toNat < m.toNat ∧ b.toNat < m.toNat

/-- `r` is `(T · Rinv) mod m`, `Rinv` being the inverse of 2^256 modulo the odd m: the one number below m whose product
with 2^256 is congruent to T (42_montgomery_engine.md, opening text). -/
abbrev IsReduced (r T m : Nat) : Prop := r < m ∧ r * 2 ^ 256 % m = T % m

end Sys2Proof
end

