-- ==== Sys2Proof/Certificates/Slice0/Obligations.lean ====
section
/-! DEFINITION. The statements for the provers. Each docstring names the rule of the spec that the statement formalises. -/

open Sys2Proof Sys2Proof.Machine

/- ENCODING -/

/-- R82 to R85: one word for every row of the opcode table decodes to the command it stands for. Seventeen of the words
are the examples of the commands' own rules; those of MRED (program P7), MSUB (P3), VISZ (T8), VLDBE (T35), VSTBE (T39)
and WLDBE (T44) are from 95_test_vectors.md. -/
def Obligations.ExampleWordsDecode : Prop :=
  decode 0x10312000 = .ok (.mmul 3 1 2 0 0) ∧ decode 0x11310000 = .ok (.msqr 3 1 0 0) ∧
  decode 0x12600410 = .ok (.mred 6 0 4 1) ∧ decode 0x13430000 = .ok (.mfrom 4 3 0 0) ∧
  decode 0x14512000 = .ok (.madd 5 1 2 0) ∧ decode 0x15432000 = .ok (.msub 4 3 2 0) ∧
  decode 0x20130000 = .ok (.isz 1 3) ∧ decode 0x21F20000 = .ok (.visz 15 2) ∧
  decode 0x22510000 = .ok (.wisz 5 1) ∧ decode 0x23012000 = .ok (.veq 0 1 2) ∧
  decode 0x24203000 = .ok (.weq 2 0 3) ∧ decode 0x25940000 = .ok (.vcpy 9 4) ∧
  decode 0x26100000 = .ok (.wcpy 1 0) ∧ decode 0x27700000 = .ok (.vzero 7) ∧
  decode 0x28200000 = .ok (.wzero 2) ∧ decode 0x30364120 = .ok (.vldbe 3 100 9) ∧
  decode 0x311C9060 = .ok (.vstbe 1 201 3) ∧ decode 0x322400A0 = .ok (.vldle 2 64 5) ∧
  decode 0x33200100 = .ok (.vstle 2 0 8) ∧ decode 0x34200400 = .ok (.wldbe 2 0 32) ∧
  decode 0x35180800 = .ok (.wstbe 1 128 64) ∧ decode 0x36200800 = .ok (.wldle 2 0 64) ∧
  decode 0x373C0800 = .ok (.wstle 3 192 64)

/-- R82 to R86: no bit of an encoding is dropped, for every well-formed command and every value of its operands. -/
def Obligations.DecodeOfEncodeIsTheCommand : Prop :=
  ∀ i : Instr, i.wellFormed = true → decode (encode i) = .ok i

/-- R86, R87: a word has one meaning, and only the one word of a command has it (reserved bits are not ignored). -/
def Obligations.DecodedWordIsTheEncoding : Prop :=
  ∀ (c : CmdWord) (i : Instr), decode c = .ok i → encode i = c ∧ i.wellFormed = true

/-- R86: the decoder, which reads fields, accepts exactly the words that pass `c & mask = match` for a row of the table
and the length and range conditions of a format-C row. -/
def Obligations.DecoderAcceptsExactlyTheTable : Prop :=
  ∀ c : CmdWord, (∃ i, decode c = .ok i) ↔ LegalByTable c

/-- R87: every word that R86 does not make legal is illegal, in particular those of the unassigned opcodes, the
all-zeros word and the all-ones word; there is no other class, so a word that decodes is legal. The name of the error
that the last clauses give is the model's choice (log 13): the block records no cause (R192). -/
def Obligations.EveryOtherWordIsIllegal : Prop :=
  (∀ c : CmdWord, (∃ e, decode c = .error e) ↔ ¬ LegalByTable c) ∧
  (∀ c : CmdWord, (∀ o ∈ Opcode.all, (c.extractLsb' 24 8).toNat ≠ o.code) → decode c = .error .unassignedOpcode) ∧
  decode 0x00000000 = .error .unassignedOpcode ∧ decode 0xFFFFFFFF = .error .unassignedOpcode

/-- R90 to R92: what the assembler emits for any line of text is a list of moves whose every issued word is legal. The
rules do not say that a conversion line whose offset and length make no legal word is refused: that it is an assembly
error is the model's choice (log 19, log 20). -/
def Obligations.AssembledWordsAreLegal : Prop :=
  ∀ (line : String) (ms : List Move), Asm.assembleLine line = some ms → allLegal ms = true

/- THE STEP AND THE HOST'S MOVES -/

/-- R60, R61: issuing a legal word to a block that is not frozen performs exactly its command, on the state in which the
move has been taken. -/
def Obligations.StepPerformsTheDecodedCommand : Prop :=
  ∀ (s : State) (c : CmdWord) (rest : List Move) (i : Instr),
    s.moves = .issue c :: rest → s.ill = false → decode c = .ok i →
    step s = exec i { s with moves := rest }

/-- R192: issuing an illegal word sets STATUS.ILL and changes nothing else. -/
def Obligations.IllegalWordOnlySetsIll : Prop :=
  ∀ (s : State) (c : CmdWord) (rest : List Move),
    s.moves = .issue c :: rest → s.ill = false → ¬ LegalByTable c →
    step s = .next { s with moves := rest, ill := true }

/-- R193: while ILL is 1 every Issue, legal or not, changes nothing; the host's reads and writes of B and X and its read
of STATUS still work; Reset, and no other move, clears ILL. -/
def Obligations.FrozenBlockServesOnlyTheHost : Prop :=
  ∀ (s : State) (mv : Move) (rest : List Move), BufferFormed s → s.moves = mv :: rest → s.ill = true →
    (∀ c, mv = .issue c → step s = .next { s with moves := rest }) ∧
    (∀ a b, mv = .writeB a b → ∃ t, step s = .next t ∧ t.b.read a = some b ∧
      ChangesOnly [.b a] { s with moves := rest } t) ∧
    (∀ a, mv = .readB a → ∃ b, s.b.read a = some b ∧
      step s = .next { s with moves := rest, answers := s.answers ++ [.byte b] }) ∧
    (∀ i w, mv = .writeX i w → ∃ t, step s = .next t ∧ t.readX i = w ∧
      ChangesOnly [.x i] { s with moves := rest } t) ∧
    (∀ i, mv = .readX i →
      step s = .next { s with moves := rest, answers := s.answers ++ [.word (s.readX i)] }) ∧
    (mv = .readStatus → step s = .next { s with moves := rest, answers := s.answers ++ [.status 1] }) ∧
    (mv = .reset → ∃ t, step s = .next t ∧ t.ill = false) ∧
    (mv ≠ .reset → ∀ t, step s = .next t → t.ill = true)

/-- R60: HostWriteB stores the byte, HostWriteX writes the scalar register, and each changes nothing else, frozen or
not. -/
def Obligations.HostWritesStoreInOnePlace : Prop :=
  (∀ (s : State) (a : Fin 256) (b : Byte) (rest : List Move), BufferFormed s → s.moves = .writeB a b :: rest →
    ∃ t, step s = .next t ∧ t.b.read a = some b ∧ ChangesOnly [.b a] { s with moves := rest } t) ∧
  (∀ (s : State) (i : XReg) (w : Limb) (rest : List Move), s.moves = .writeX i w :: rest →
    ∃ t, step s = .next t ∧ t.readX i = w ∧ ChangesOnly [.x i] { s with moves := rest } t)

/-- R60, R28: HostReadB, HostReadX and HostReadStatus give the host the byte, the register and STATUS (bit 0 is ILL,
bits 31:1 are zero) and change nothing of the block. -/
def Obligations.HostReadsGiveWhatIsThere : Prop :=
  (∀ (s : State) (a : Fin 256) (rest : List Move), BufferFormed s → s.moves = .readB a :: rest →
    ∃ b, s.b.read a = some b ∧ step s = .next { s with moves := rest, answers := s.answers ++ [.byte b] }) ∧
  (∀ (s : State) (i : XReg) (rest : List Move), s.moves = .readX i :: rest →
    step s = .next { s with moves := rest, answers := s.answers ++ [.word (s.readX i)] }) ∧
  (∀ (s : State) (rest : List Move), s.moves = .readStatus :: rest →
    ∃ r : BitVec 32, step s = .next { s with moves := rest, answers := s.answers ++ [.status r] } ∧
      r.getLsbD 0 = s.ill ∧ ∀ k, 0 < k → r.getLsbD k = false)

/-- R210: Reset clears ILL and gives every register and every byte the next reset image, whatever the state was. That
the draw has a number, and that the host's moves and answers stay, is the model's choice (log 1, log 4, log 5). -/
def Obligations.ResetTakesAFreshImage : Prop :=
  ∀ (s : State) (rest : List Move), s.moves = .reset :: rest →
    ∃ t, step s = .next t ∧ t.ill = false ∧
      (∀ i, t.readV i = Config.resetV s.draws i) ∧ (∀ i, t.readW i = Config.resetW s.draws i) ∧
      (∀ i, t.readX i = Config.resetX s.draws i) ∧
      (∀ a, a < 256 → t.b.read a = some (Config.resetB s.draws a)) ∧
      t.draws = s.draws + 1 ∧ t.moves = rest ∧ t.answers = s.answers

/-- R35: right after reset ILL and the whole of STATUS are 0 and the storage holds a reset image. That this is the image
number 0 is the model's choice (log 5). -/
def Obligations.StateRightAfterReset : Prop :=
  State.reset.ill = false ∧ State.reset.status = 0 ∧
    (∀ i, State.reset.readV i = Config.resetV 0 i) ∧ (∀ i, State.reset.readW i = Config.resetW 0 i) ∧
    (∀ i, State.reset.readX i = Config.resetX 0 i) ∧
    (∀ a, a < 256 → State.reset.b.read a = some (Config.resetB 0 a)) ∧
    (∀ a, 256 ≤ a → State.reset.b.read a = none)

/-- R193, R211: a step that leaves the frozen state is a Reset. -/
def Obligations.OnlyResetLeavesTheFrozenState : Prop :=
  ∀ s t : State, step s = .next t → s.ill = true → t.ill = false → ∃ rest, s.moves = .reset :: rest

/-- R28, R190, R194: a step that sets ILL issued an illegal word; no operand value and no host access does. -/
def Obligations.OnlyAnIllegalWordSetsIll : Prop :=
  ∀ s t : State, step s = .next t → s.ill = false → t.ill = true →
    ∃ c rest, s.moves = .issue c :: rest ∧ ¬ LegalByTable c

/-- R50: the buffer keeps its one form, exactly the bytes 0 .. 255, along every step from every state that has it. The
form is the model's choice (log 6). -/
def Obligations.StepKeepsTheBufferForm : Prop :=
  ∀ s t : State, BufferFormed s → step s = .next t → BufferFormed t

/-- R35, R50: the state right after reset has the buffer's form, which is the model's choice (log 6). -/
def Obligations.ResetStateHasTheBufferForm : Prop := BufferFormed State.reset

/-- R224 (the spec marks it "derived: from `00_scope.md` rule R19 and `60_exceptions.md` rule R193"): no command, legal
or illegal, and no host move leaves the block unable to take the next move: every step from a state that meets the
invariant answers a next state, and takes the next move if one is left. The list of moves, and that a step with no move
left answers a next state too, are the model's choices (log 1, log 3). -/
def Obligations.NoStepHangs : Prop :=
  ∀ s : State, BufferFormed s → ∃ t, step s = .next t ∧ t.moves = s.moves.tail

/-- R193, R223: a run all of whose issued words are legal never stops and ends well, from every state that meets the
invariant and is not frozen, for every number of steps. The list of moves, and the steps past its end, which change
nothing, are the model's choices (log 1, log 3). -/
def Obligations.LegalRunsEndWell : Prop :=
  ∀ (k : Nat) (s : State), BufferFormed s → s.ill = false → allLegal s.moves = true →
    ∃ t, Host.Core.run core k s = .next t ∧ EndedWell t ∧ BufferFormed t

/- WHAT COMMANDS MAY READ AND WRITE -/

/-- R25: a command writes nothing that the table does not mark W (every register, every byte of the buffer outside its
destination, ILL and the model's own fields are unchanged), and what it writes depends only on the places the table
marks R: two states that agree on them, however they differ elsewhere, get the same values in its destinations. -/
def Obligations.CommandsTouchOnlyWhatTheTableMarks : Prop :=
  (∀ (i : Instr) (s t : State), i.wellFormed = true → exec i s = .next t → ChangesOnly (writes i) s t) ∧
  (∀ (i : Instr) (s₁ s₂ : State), i.wellFormed = true → BufferFormed s₁ → BufferFormed s₂ →
    (∀ p ∈ reads i, s₁.look p = s₂.look p) →
    ∃ t₁ t₂, exec i s₁ = .next t₁ ∧ exec i s₂ = .next t₂ ∧ ∀ p ∈ writes i, t₁.look p = t₂.look p)

/-- R22: a W register changes only by WLDBE, WLDLE, WCPY, WZERO and Reset. -/
def Obligations.WideRegistersChangeOnlyByTheirCommands : Prop :=
  ∀ s t : State, step s = .next t → (∃ r, t.readW r ≠ s.readW r) →
    (∃ rest, s.moves = .reset :: rest) ∨
    ∃ c rest i, s.moves = .issue c :: rest ∧ decode c = .ok i ∧
      ((∃ wd off len, i = .wldbe wd off len) ∨ (∃ wd off len, i = .wldle wd off len) ∨
        (∃ wd wa, i = .wcpy wd wa) ∨ (∃ wd, i = .wzero wd))

/-- R131, R192: a conversion whose length or range is not legal sets ILL and does nothing else. No word decodes to one:
that exec answers so is the model's choice (log 8). -/
def Obligations.IllFormedCommandsRaiseIllegal : Prop :=
  ∀ (i : Instr) (s : State), i.wellFormed = false → exec i s = .next { s with ill := true }

/- THE CONSTANT-TIME PRIMITIVES -/

/-- R104, R105, R106: the zero testers write the whole 64-bit word 1 or 0 to X[xd], by the value of the whole operand,
and change nothing else; xd may equal xa. -/
def Obligations.ZeroTestersWriteTheFlag : Prop :=
  ∀ (s : State) (xd : XReg),
    (∀ xa : XReg, ∃ t, exec (.isz xd xa) s = .next t ∧ ChangesOnly [.x xd] s t ∧
      t.readX xd = if (s.readX xa).toNat = 0 then 1 else 0) ∧
    (∀ va : VReg, ∃ t, exec (.visz xd va) s = .next t ∧ ChangesOnly [.x xd] s t ∧
      t.readX xd = if (s.readV va).toNat = 0 then 1 else 0) ∧
    (∀ wa : WReg, ∃ t, exec (.wisz xd wa) s = .next t ∧ ChangesOnly [.x xd] s t ∧
      t.readX xd = if (s.readW wa).toNat = 0 then 1 else 0)

/-- R107, R108, R113, R114: the equality testers write 1 exactly when the two bit patterns are identical. -/
def Obligations.EqualityTestersWriteTheFlag : Prop :=
  ∀ (s : State) (xd : XReg),
    (∀ va vb : VReg, ∃ t, exec (.veq xd va vb) s = .next t ∧ ChangesOnly [.x xd] s t ∧
      t.readX xd = if s.readV va = s.readV vb then 1 else 0) ∧
    (∀ wa wb : WReg, ∃ t, exec (.weq xd wa wb) s = .next t ∧ ChangesOnly [.x xd] s t ∧
      t.readX xd = if s.readW wa = s.readW wb then 1 else 0)

/-- R115: the zero test is true iff every limb is 0. -/
def Obligations.ZeroTestIsOfEveryLimb : Prop :=
  (∀ (s t : State) (xd : XReg) (va : VReg), exec (.visz xd va) s = .next t →
    (t.readX xd = 1 ↔ ∀ k, k < 4 → limbV (s.readV va) k = 0)) ∧
  (∀ (s t : State) (xd : XReg) (wa : WReg), exec (.wisz xd wa) s = .next t →
    (t.readX xd = 1 ↔ ∀ k, k < 8 → limbW (s.readW wa) k = 0))

/-- R109, R110: the copies write all of the source register and change nothing else; the source may be the destination.
-/
def Obligations.CopiesWriteTheSource : Prop :=
  ∀ s : State,
    (∀ vd va : VReg, ∃ t, exec (.vcpy vd va) s = .next t ∧ ChangesOnly [.v vd] s t ∧ t.readV vd = s.readV va) ∧
    (∀ wd wa : WReg, ∃ t, exec (.wcpy wd wa) s = .next t ∧ ChangesOnly [.w wd] s t ∧ t.readW wd = s.readW wa)

/-- R111, R112, R119: the secure zeros clear the one register whatever it held, and clear nothing else. -/
def Obligations.SecureZeroClearsOneRegister : Prop :=
  ∀ s : State,
    (∀ vd : VReg, ∃ t, exec (.vzero vd) s = .next t ∧ ChangesOnly [.v vd] s t ∧ t.readV vd = 0) ∧
    (∀ wd : WReg, ∃ t, exec (.wzero wd) s = .next t ∧ ChangesOnly [.w wd] s t ∧ t.readW wd = 0)

/-- R116: after a secure zero the zero test of the register gives 1. -/
def Obligations.ZeroTestAfterSecureZero : Prop :=
  ∀ (s : State) (xd : XReg),
    (∀ vd : VReg, ∃ t u, exec (.vzero vd) s = .next t ∧ exec (.visz xd vd) t = .next u ∧ u.readX xd = 1) ∧
    (∀ wd : WReg, ∃ t u, exec (.wzero wd) s = .next t ∧ exec (.wisz xd wd) t = .next u ∧ u.readX xd = 1)

/-- R117 (the spec marks it "derived: from rule R105 and rule R107"): the zero test of a vector gives the same flag as
its equality test against a register that holds zero. -/
def Obligations.ZeroTestIsEqualityWithZero : Prop :=
  ∀ (s : State) (xd : XReg) (va vz : VReg), s.readV vz = 0 → exec (.visz xd va) s = exec (.veq xd va vz) s

/-- R104: the branch-free form that the rule gives as "informative" ("from general knowledge, not in source") is the
flag. -/
def Obligations.BitwiseZeroTestIsTheFlag : Prop := ∀ l : Limb, isZeroBitwise l = isZero l

/-- R74: the mask is all-one or all-zero bits, and the masked select is the choice. -/
def Obligations.SelectMaskChooses : Prop :=
  ∀ (n : Nat) (c : Bool) (a b : BitVec n),
    selectMask n c = (if c then BitVec.allOnes n else 0) ∧ select (selectMask n c) a b = if c then a else b

/- THE BYTE CONVERSIONS -/

/-- R132, R136, R140, R142: a big-endian load writes the whole register with the integer of the bytes, the byte at the
lowest address most significant, not reduced, and changes nothing else. -/
def Obligations.BigEndianLoads : Prop :=
  ∀ (s : State) (off : Off) (len : Len), BufferFormed s → 1 ≤ len.val → off.val + len.val ≤ 256 →
    (len.val ≤ 32 → ∀ vd : VReg, ∃ t, exec (.vldbe vd off len) s = .next t ∧ ChangesOnly [.v vd] s t ∧
      (t.readV vd).toNat < 256 ^ len.val ∧
      ∀ j, j < len.val → s.b.read (off + j) = some (BitVec.ofNat 8 ((t.readV vd).toNat / 256 ^ (len.val - 1 - j)))) ∧
    (len.val ≤ 64 → ∀ wd : WReg, ∃ t, exec (.wldbe wd off len) s = .next t ∧ ChangesOnly [.w wd] s t ∧
      (t.readW wd).toNat < 256 ^ len.val ∧
      ∀ j, j < len.val → s.b.read (off + j) = some (BitVec.ofNat 8 ((t.readW wd).toNat / 256 ^ (len.val - 1 - j))))

/-- R134, R138, R140, R142: a little-endian load, the byte at the lowest address least significant. -/
def Obligations.LittleEndianLoads : Prop :=
  ∀ (s : State) (off : Off) (len : Len), BufferFormed s → 1 ≤ len.val → off.val + len.val ≤ 256 →
    (len.val ≤ 32 → ∀ vd : VReg, ∃ t, exec (.vldle vd off len) s = .next t ∧ ChangesOnly [.v vd] s t ∧
      (t.readV vd).toNat < 256 ^ len.val ∧
      ∀ j, j < len.val → s.b.read (off + j) = some (BitVec.ofNat 8 ((t.readV vd).toNat / 256 ^ j))) ∧
    (len.val ≤ 64 → ∀ wd : WReg, ∃ t, exec (.wldle wd off len) s = .next t ∧ ChangesOnly [.w wd] s t ∧
      (t.readW wd).toNat < 256 ^ len.val ∧
      ∀ j, j < len.val → s.b.read (off + j) = some (BitVec.ofNat 8 ((t.readW wd).toNat / 256 ^ j)))

/-- R133, R137, R141: a big-endian store writes the `len` least significant bytes of the register, the most significant
of them at the lowest address; every other byte, and every register, is unchanged. -/
def Obligations.BigEndianStores : Prop :=
  ∀ (s : State) (off : Off) (len : Len), BufferFormed s → 1 ≤ len.val → off.val + len.val ≤ 256 →
    (len.val ≤ 32 → ∀ va : VReg, ∃ t, exec (.vstbe va off len) s = .next t ∧ ChangesOnly (bufferRange off len) s t ∧
      ∀ j, j < len.val → t.b.read (off + j) = some (BitVec.ofNat 8 ((s.readV va).toNat / 256 ^ (len.val - 1 - j)))) ∧
    (len.val ≤ 64 → ∀ wa : WReg, ∃ t, exec (.wstbe wa off len) s = .next t ∧ ChangesOnly (bufferRange off len) s t ∧
      ∀ j, j < len.val → t.b.read (off + j) = some (BitVec.ofNat 8 ((s.readW wa).toNat / 256 ^ (len.val - 1 - j))))

/-- R135, R139, R141: a little-endian store, the least significant byte at the lowest address. -/
def Obligations.LittleEndianStores : Prop :=
  ∀ (s : State) (off : Off) (len : Len), BufferFormed s → 1 ≤ len.val → off.val + len.val ≤ 256 →
    (len.val ≤ 32 → ∀ va : VReg, ∃ t, exec (.vstle va off len) s = .next t ∧ ChangesOnly (bufferRange off len) s t ∧
      ∀ j, j < len.val → t.b.read (off + j) = some (BitVec.ofNat 8 ((s.readV va).toNat / 256 ^ j))) ∧
    (len.val ≤ 64 → ∀ wa : WReg, ∃ t, exec (.wstle wa off len) s = .next t ∧ ChangesOnly (bufferRange off len) s t ∧
      ∀ j, j < len.val → t.b.read (off + j) = some (BitVec.ofNat 8 ((s.readW wa).toNat / 256 ^ j)))

/-- R143 (the spec marks it "derived: from rules R132 to R139"): a load followed by a store of the same register, length
and byte order writes back exactly the bytes that were read, to whatever offset the store names. -/
def Obligations.LoadThenStoreWritesTheBytesBack : Prop :=
  ∀ (s : State) (off off' : Off) (len : Len), BufferFormed s → 1 ≤ len.val → off.val + len.val ≤ 256 →
    off'.val + len.val ≤ 256 →
    (len.val ≤ 32 → ∀ r : VReg,
      (∃ t u, exec (.vldbe r off len) s = .next t ∧ exec (.vstbe r off' len) t = .next u ∧
        ∀ j, j < len.val → u.b.read (off' + j) = s.b.read (off + j)) ∧
      (∃ t u, exec (.vldle r off len) s = .next t ∧ exec (.vstle r off' len) t = .next u ∧
        ∀ j, j < len.val → u.b.read (off' + j) = s.b.read (off + j))) ∧
    (len.val ≤ 64 → ∀ r : WReg,
      (∃ t u, exec (.wldbe r off len) s = .next t ∧ exec (.wstbe r off' len) t = .next u ∧
        ∀ j, j < len.val → u.b.read (off' + j) = s.b.read (off + j)) ∧
      (∃ t u, exec (.wldle r off len) s = .next t ∧ exec (.wstle r off' len) t = .next u ∧
        ∀ j, j < len.val → u.b.read (off' + j) = s.b.read (off + j)))

/-- R143 (the spec marks it "derived: from rules R132 to R139"): a store followed by a load of the same length and byte
order restores the register iff its value was below 256^len; the load may be into another register. -/
def Obligations.StoreThenLoadRestoresSmallValues : Prop :=
  ∀ (s : State) (off : Off) (len : Len), BufferFormed s → 1 ≤ len.val → off.val + len.val ≤ 256 →
    (len.val ≤ 32 → ∀ r r' : VReg,
      (∃ t u, exec (.vstbe r off len) s = .next t ∧ exec (.vldbe r' off len) t = .next u ∧
        (u.readV r' = s.readV r ↔ (s.readV r).toNat < 256 ^ len.val)) ∧
      (∃ t u, exec (.vstle r off len) s = .next t ∧ exec (.vldle r' off len) t = .next u ∧
        (u.readV r' = s.readV r ↔ (s.readV r).toNat < 256 ^ len.val))) ∧
    (len.val ≤ 64 → ∀ r r' : WReg,
      (∃ t u, exec (.wstbe r off len) s = .next t ∧ exec (.wldbe r' off len) t = .next u ∧
        (u.readW r' = s.readW r ↔ (s.readW r).toNat < 256 ^ len.val)) ∧
      (∃ t u, exec (.wstle r off len) s = .next t ∧ exec (.wldle r' off len) t = .next u ∧
        (u.readW r' = s.readW r ↔ (s.readW r).toNat < 256 ^ len.val)))

/-- R146 (the spec marks it "derived: from rules R132 to R135"): the bytes VSTLE writes are the reverse of those VSTBE
writes, and VLDLE of bytes gives what VLDBE of the reversed bytes gives. -/
def Obligations.ByteOrdersAreReversals : Prop :=
  ∀ (s : State) (off : Off) (len : Len), BufferFormed s → 1 ≤ len.val → len.val ≤ 32 → off.val + len.val ≤ 256 →
    (∀ r : VReg, ∃ t u, exec (.vstbe r off len) s = .next t ∧ exec (.vstle r off len) s = .next u ∧
      ∀ j, j < len.val → u.b.read (off + j) = t.b.read (off + (len.val - 1 - j))) ∧
    (∀ (s' : State) (off' : Off) (r r' : VReg), BufferFormed s' → off'.val + len.val ≤ 256 →
      (∀ j, j < len.val → s'.b.read (off' + j) = s.b.read (off + (len.val - 1 - j))) →
      ∃ t u, exec (.vldle r off len) s = .next t ∧ exec (.vldbe r' off' len) s' = .next u ∧ t.readV r = u.readV r')

/-- R147 (the spec marks it "derived: from rules R132 to R139"): for up to 32 bytes the V and W forms load the same
integer, and store the same bytes of the same value below 256^len, in both byte orders. -/
def Obligations.VAndWFormsAgree : Prop :=
  ∀ (s : State) (off : Off) (len : Len), BufferFormed s → 1 ≤ len.val → len.val ≤ 32 → off.val + len.val ≤ 256 →
    ∀ (r : VReg) (q : WReg),
    (∃ t u, exec (.vldbe r off len) s = .next t ∧ exec (.wldbe q off len) s = .next u ∧
      (t.readV r).toNat = (u.readW q).toNat) ∧
    (∃ t u, exec (.vldle r off len) s = .next t ∧ exec (.wldle q off len) s = .next u ∧
      (t.readV r).toNat = (u.readW q).toNat) ∧
    ((s.readV r).toNat = (s.readW q).toNat → (s.readV r).toNat < 256 ^ len.val →
      exec (.vstbe r off len) s = exec (.wstbe q off len) s ∧ exec (.vstle r off len) s = exec (.wstle q off len) s)

/- THE MONTGOMERY ENGINE -/

/-- R155, R154: MMUL completes for all operands and changes only V[vd]; in domain it writes (a · b · Rinv) mod m, out of
domain OOD_MMUL(a, b, m, n0). vd may be any of the operands. -/
def Obligations.MmulWritesTheMontgomeryProduct : Prop :=
  ∀ (s : State) (vd va vb vm : VReg) (xn : XReg),
    ∃ t, exec (.mmul vd va vb vm xn) s = .next t ∧ ChangesOnly [.v vd] s t ∧
      (MulDomain (s.readV va) (s.readV vb) (s.readV vm) (s.readX xn) →
        IsReduced (t.readV vd).toNat ((s.readV va).toNat * (s.readV vb).toNat) (s.readV vm).toNat) ∧
      (¬ MulDomain (s.readV va) (s.readV vb) (s.readV vm) (s.readX xn) →
        t.readV vd = Config.oodMmul (s.readV va) (s.readV vb) (s.readV vm) (s.readX xn))

/-- R158, R154: MSQR, in domain (a · a · Rinv) mod m, out of domain OOD_MMUL(a, a, m, n0). -/
def Obligations.MsqrWritesTheMontgomerySquare : Prop :=
  ∀ (s : State) (vd va vm : VReg) (xn : XReg),
    ∃ t, exec (.msqr vd va vm xn) s = .next t ∧ ChangesOnly [.v vd] s t ∧
      (OneDomain (s.readV va) (s.readV vm) (s.readX xn) →
        IsReduced (t.readV vd).toNat ((s.readV va).toNat * (s.readV va).toNat) (s.readV vm).toNat) ∧
      (¬ OneDomain (s.readV va) (s.readV vm) (s.readX xn) →
        t.readV vd = Config.oodMmul (s.readV va) (s.readV va) (s.readV vm) (s.readX xn))

/-- R160, R154: MRED, in domain (T · Rinv) mod m, out of domain OOD_MRED(T, m, n0). -/
def Obligations.MredWritesTheReduction : Prop :=
  ∀ (s : State) (vd : VReg) (wa : WReg) (vm : VReg) (xn : XReg),
    ∃ t, exec (.mred vd wa vm xn) s = .next t ∧ ChangesOnly [.v vd] s t ∧
      (RedDomain (s.readW wa) (s.readV vm) (s.readX xn) →
        IsReduced (t.readV vd).toNat (s.readW wa).toNat (s.readV vm).toNat) ∧
      (¬ RedDomain (s.readW wa) (s.readV vm) (s.readX xn) →
        t.readV vd = Config.oodMred (s.readW wa) (s.readV vm) (s.readX xn))

/-- R163, R154: MFROM, in domain (a · Rinv) mod m, out of domain OOD_MFROM(a, m, n0). -/
def Obligations.MfromWritesTheStandardForm : Prop :=
  ∀ (s : State) (vd va vm : VReg) (xn : XReg),
    ∃ t, exec (.mfrom vd va vm xn) s = .next t ∧ ChangesOnly [.v vd] s t ∧
      (OneDomain (s.readV va) (s.readV vm) (s.readX xn) →
        IsReduced (t.readV vd).toNat (s.readV va).toNat (s.readV vm).toNat) ∧
      (¬ OneDomain (s.readV va) (s.readV vm) (s.readX xn) →
        t.readV vd = Config.oodMfrom (s.readV va) (s.readV vm) (s.readX xn))

/-- R166, R154: MADD, in domain (a + b) mod m, out of domain OOD_MADD(a, b, m); no n0 is read. -/
def Obligations.MaddWritesTheModularSum : Prop :=
  ∀ (s : State) (vd va vb vm : VReg),
    ∃ t, exec (.madd vd va vb vm) s = .next t ∧ ChangesOnly [.v vd] s t ∧
      (AddDomain (s.readV va) (s.readV vb) (s.readV vm) →
        (t.readV vd).toNat = ((s.readV va).toNat + (s.readV vb).toNat) % (s.readV vm).toNat) ∧
      (¬ AddDomain (s.readV va) (s.readV vb) (s.readV vm) →
        t.readV vd = Config.oodMadd (s.readV va) (s.readV vb) (s.readV vm))

/-- R170, R154: MSUB, in domain (a - b) mod m, which is a - b if a ≥ b and else a - b + m; out of domain OOD_MSUB(a, b,
m). -/
def Obligations.MsubWritesTheModularDifference : Prop :=
  ∀ (s : State) (vd va vb vm : VReg),
    ∃ t, exec (.msub vd va vb vm) s = .next t ∧ ChangesOnly [.v vd] s t ∧
      (AddDomain (s.readV va) (s.readV vb) (s.readV vm) →
        ((t.readV vd).toNat : Int) = (((s.readV va).toNat : Int) - (s.readV vb).toNat) % (s.readV vm).toNat) ∧
      (¬ AddDomain (s.readV va) (s.readV vb) (s.readV vm) →
        t.readV vd = Config.oodMsub (s.readV va) (s.readV vb) (s.readV vm))

/-- R154: an engine command out of its domain completes, sets no flag, writes its destination and nothing else, and the
value is that of the open function of its operand values. -/
def Obligations.OutOfDomainCommandsWriteTheOpenValue : Prop :=
  ∀ (s : State) (vd va vb vm : VReg) (wa : WReg) (xn : XReg),
    (¬ MulDomain (s.readV va) (s.readV vb) (s.readV vm) (s.readX xn) →
      exec (.mmul vd va vb vm xn) s =
        .next (s.writeV vd (Config.oodMmul (s.readV va) (s.readV vb) (s.readV vm) (s.readX xn)))) ∧
    (¬ OneDomain (s.readV va) (s.readV vm) (s.readX xn) →
      exec (.msqr vd va vm xn) s =
          .next (s.writeV vd (Config.oodMmul (s.readV va) (s.readV va) (s.readV vm) (s.readX xn))) ∧
        exec (.mfrom vd va vm xn) s = .next (s.writeV vd (Config.oodMfrom (s.readV va) (s.readV vm) (s.readX xn)))) ∧
    (¬ RedDomain (s.readW wa) (s.readV vm) (s.readX xn) →
      exec (.mred vd wa vm xn) s = .next (s.writeV vd (Config.oodMred (s.readW wa) (s.readV vm) (s.readX xn)))) ∧
    (¬ AddDomain (s.readV va) (s.readV vb) (s.readV vm) →
      exec (.madd vd va vb vm) s = .next (s.writeV vd (Config.oodMadd (s.readV va) (s.readV vb) (s.readV vm))) ∧
        exec (.msub vd va vb vm) s = .next (s.writeV vd (Config.oodMsub (s.readV va) (s.readV vb) (s.readV vm))))

/-- R159: MSQR is MMUL of the operand by itself for every content of the registers, in domain or not. -/
def Obligations.SquaringIsMultiplyingByItself : Prop :=
  ∀ (s : State) (vd va vm : VReg) (xn : XReg), exec (.msqr vd va vm xn) s = exec (.mmul vd va va vm xn) s

/-- R156 (the spec marks it "derived: from rule R155"): MMUL of the Montgomery forms of x and y is the Montgomery form
of x · y mod m. -/
def Obligations.MontgomeryFormsMultiply : Prop :=
  ∀ (s : State) (vd va vb vm : VReg) (xn : XReg) (x y : Nat),
    ModulusOk (s.readV vm) (s.readX xn) → x < (s.readV vm).toNat → y < (s.readV vm).toNat →
    (s.readV va).toNat = montForm x (s.readV vm).toNat → (s.readV vb).toNat = montForm y (s.readV vm).toNat →
    ∃ t, exec (.mmul vd va vb vm xn) s = .next t ∧
      (t.readV vd).toNat = montForm (x * y % (s.readV vm).toNat) (s.readV vm).toNat

/-- R165: MMUL by R² mod m gives the Montgomery form, and MFROM of that gives the residue back. The first destination
must not be the modulus register, which it would overwrite (R216). -/
def Obligations.MontgomeryFormRoundTrip : Prop :=
  ∀ (s : State) (vd ve va vr vm : VReg) (xn : XReg),
    ModulusOk (s.readV vm) (s.readX xn) → (s.readV va).toNat < (s.readV vm).toNat →
    (s.readV vr).toNat = 2 ^ 256 * 2 ^ 256 % (s.readV vm).toNat → vd ≠ vm →
    ∃ t u, exec (.mmul vd va vr vm xn) s = .next t ∧ exec (.mfrom ve vd vm xn) t = .next u ∧
      (t.readV vd).toNat = montForm (s.readV va).toNat (s.readV vm).toNat ∧ u.readV ve = s.readV va

/-- R162 (the spec marks it "derived: from rule R155 and rule R160"): in domain MMUL writes what MRED writes of the
exact product. -/
def Obligations.MultiplicationIsProductThenReduction : Prop :=
  ∀ (s : State) (vd va vb vm : VReg) (wa : WReg) (xn : XReg),
    MulDomain (s.readV va) (s.readV vb) (s.readV vm) (s.readX xn) →
    (s.readW wa).toNat = (s.readV va).toNat * (s.readV vb).toNat →
    exec (.mmul vd va vb vm xn) s = exec (.mred vd wa vm xn) s

/-- R164 (the spec marks it "derived: from rules R155, R160 and R163"): in domain MFROM is MMUL by the integer one, and
MRED of the value zero-extended to 512 bits. -/
def Obligations.MfromIsMultiplicationByOne : Prop :=
  ∀ (s : State) (vd va v1 vm : VReg) (wa : WReg) (xn : XReg),
    OneDomain (s.readV va) (s.readV vm) (s.readX xn) →
    (s.readV v1 = 1 → exec (.mfrom vd va vm xn) s = exec (.mmul vd va v1 vm xn) s) ∧
    (s.readW wa = (s.readV va).setWidth 512 → exec (.mfrom vd va vm xn) s = exec (.mred vd wa vm xn) s)

/-- R168: MADD and MSUB of Montgomery forms give the Montgomery forms of the sum and of the difference. -/
def Obligations.MontgomeryFormIsLinear : Prop :=
  ∀ (s : State) (vd va vb vm : VReg) (x y : Nat),
    (s.readV vm).toNat % 2 = 1 → 3 ≤ (s.readV vm).toNat → x < (s.readV vm).toNat → y < (s.readV vm).toNat →
    (s.readV va).toNat = montForm x (s.readV vm).toNat → (s.readV vb).toNat = montForm y (s.readV vm).toNat →
    (∃ t, exec (.madd vd va vb vm) s = .next t ∧
      (t.readV vd).toNat = montForm ((x + y) % (s.readV vm).toNat) (s.readV vm).toNat) ∧
    (∃ t, exec (.msub vd va vb vm) s = .next t ∧
      (t.readV vd).toNat = montForm ((x + (s.readV vm).toNat - y) % (s.readV vm).toNat) (s.readV vm).toNat)

/-- R176 (the spec marks it "derived: from rule R155 and rule R160", on its own bound P-T): MRED and then MMUL by R² mod
m reduce any value below 2^256, held in a W register, modulo m. The intermediate register must be neither the modulus
nor the register of R² mod m. -/
def Obligations.AnyValueIsReducedThroughMred : Prop :=
  ∀ (s : State) (vd vt vr vm : VReg) (wx : WReg) (xn : XReg),
    ModulusOk (s.readV vm) (s.readX xn) → (s.readW wx).toNat < 2 ^ 256 →
    (s.readV vr).toNat = 2 ^ 256 * 2 ^ 256 % (s.readV vm).toNat → vt ≠ vm → vt ≠ vr →
    ∃ t u, exec (.mred vt wx vm xn) s = .next t ∧ exec (.mmul vd vt vr vm xn) t = .next u ∧
      (u.readV vd).toNat = (s.readW wx).toNat % (s.readV vm).toNat

/-- R153, R157: the "informative" word-serial reduction meets the contract for every in-domain T: before the final
subtraction the value is below 2m, and after the one masked subtraction it is (T · Rinv) mod m. -/
def Obligations.ReferenceReductionMeetsTheContract : Prop :=
  ∀ (T : Nat) (m : Vec) (n0 : Limb), ModulusOk m n0 → T < m.toNat * 2 ^ 256 →
    redcLoop T m.toNat n0.toNat % 2 ^ 256 = 0 ∧
    redcLoop T m.toNat n0.toNat / 2 ^ 256 < 2 * m.toNat ∧
    IsReduced (redc T m n0).toNat T m.toNat

/-- R153, R155, R160, R163: in domain MMUL, MRED and MFROM write what the word-serial reduction computes from the exact
product, the wide operand and the operand. -/
def Obligations.EngineWritesTheReferenceReduction : Prop :=
  ∀ (s : State) (vd va vb vm : VReg) (wa : WReg) (xn : XReg),
    (MulDomain (s.readV va) (s.readV vb) (s.readV vm) (s.readX xn) →
      exec (.mmul vd va vb vm xn) s =
        .next (s.writeV vd (redc ((s.readV va).toNat * (s.readV vb).toNat) (s.readV vm) (s.readX xn)))) ∧
    (RedDomain (s.readW wa) (s.readV vm) (s.readX xn) →
      exec (.mred vd wa vm xn) s = .next (s.writeV vd (redc (s.readW wa).toNat (s.readV vm) (s.readX xn)))) ∧
    (OneDomain (s.readV va) (s.readV vm) (s.readX xn) →
      exec (.mfrom vd va vm xn) s = .next (s.writeV vd (redc (s.readV va).toNat (s.readV vm) (s.readX xn))))

/-- R166, R167, R170, R171: in domain MADD writes the masked 257-bit sum and MSUB the masked difference that the source
describes. -/
def Obligations.SumAndDifferenceAreTheMaskedDatapaths : Prop :=
  ∀ (s : State) (vd va vb vm : VReg), AddDomain (s.readV va) (s.readV vb) (s.readV vm) →
    exec (.madd vd va vb vm) s = .next (s.writeV vd (addDatapath (s.readV va) (s.readV vb) (s.readV vm))) ∧
    exec (.msub vd va vb vm) s = .next (s.writeV vd (subDatapath (s.readV va) (s.readV vb) (s.readV vm)))

/-- R79: the Montgomery constant exists exactly when m is odd, is unique, depends only on limb 0 of m, and satisfies
(m[0] · n0) mod 2^64 = 2^64 - 1; with the rule's two examples. -/
def Obligations.MontgomeryConstantOfOddModuli : Prop :=
  (∀ m : Vec, (∃ n0 : Limb, pN0 m.toNat n0.toNat = true) ↔ m.toNat % 2 = 1) ∧
  (∀ (m : Vec) (n n' : Limb), pN0 m.toNat n.toNat = true → pN0 m.toNat n'.toNat = true → n = n') ∧
  (∀ (m m' : Vec) (n : Limb), limbV m 0 = limbV m' 0 → pN0 m.toNat n.toNat = pN0 m'.toNat n.toNat) ∧
  (∀ (m : Vec) (n : Limb), pN0 m.toNat n.toNat = true ↔ (limbV m 0).toNat * n.toNat % 2 ^ 64 = 2 ^ 64 - 1) ∧
  pN0 97 0x5C5F02A3A0FD5C5F = true ∧ pN0 (2 ^ 255 - 19) 0x86BCA1AF286BCA1B = true

/-- R152: the iteration the rule gives "from general knowledge, not in source" is right: six steps of the Newton
iteration from 1 on limb 0 of an odd m, negated, give its Montgomery constant. -/
def Obligations.NewtonIterationGivesTheConstant : Prop :=
  ∀ m : Vec, m.toNat % 2 = 1 → pN0 m.toNat (newtonN0 m).toNat = true

/- TRACES AND LEGAL RUNS -/

/-- R221, R25, R192: a word, legal or illegal, issued to a block that is not frozen changes only what its trace says it
writes, and what it writes there depends only on what its trace says it reads, STATUS among it: a second state that agrees
on those places, however it differs elsewhere, gets the same values. -/
def Obligations.IssuedWordsTouchOnlyWhatTheirTraceNames : Prop :=
  ∀ (s₁ : State) (c : CmdWord) (rest₁ : List Move), BufferFormed s₁ → s₁.moves = .issue c :: rest₁ → s₁.ill = false →
    (∃ t, step s₁ = .next t ∧ ∀ p, p ∉ (traceOf c).writes → t.look p = s₁.look p) ∧
    ∀ (s₂ : State) (rest₂ : List Move), BufferFormed s₂ → s₂.moves = .issue c :: rest₂ →
      (∀ p ∈ (traceOf c).reads, s₁.look p = s₂.look p) →
      ∃ t₁ t₂, step s₁ = .next t₁ ∧ step s₂ = .next t₂ ∧ ∀ p ∈ (traceOf c).writes, t₁.look p = t₂.look p

/-- R193: every step keeps what makes a run of legal words succeed (the buffer's form, ILL = 0, every word still to be
issued legal), and the state right after reset has it before any list of moves whose words are legal. The list of moves and
the buffer's form are the model's choices (log 1, log 6). -/
def Obligations.StepKeepsTheLegalRun : Prop :=
  (∀ s t : State, OnLegalRun s → step s = .next t → OnLegalRun t) ∧
  (∀ ms : List Move, allLegal ms = true → OnLegalRun { State.reset with moves := ms })
end

