-- ==== Sys2Proof/Laws/Bytes.lean ====
section
/-! SUPPORT. Byte sequences as integers: lengths, bounds, single bytes, and that the two directions are inverse. -/
namespace Sys2Proof.Machine

@[simp] theorem length_beBytes (v n : Nat) : (beBytes v n).length = n := by
  induction n with
  | zero => rfl
  | succ n ih => simp [beBytes, ih]
@[simp] theorem length_leBytes (v n : Nat) : (leBytes v n).length = n := by
  induction n generalizing v with
  | zero => rfl
  | succ n ih => simp [leBytes, ih]

theorem beVal_lt (bs : List Byte) : beVal bs < 256 ^ bs.length := by
  induction bs with
  | nil => simp [beVal]
  | cons b bs ih =>
    have hb := b.isLt
    have : b.toNat * 256 ^ bs.length ≤ 255 * 256 ^ bs.length := Nat.mul_le_mul_right _ (by omega)
    simp only [beVal, List.length_cons, Nat.pow_succ]
    omega
theorem leVal_lt (bs : List Byte) : leVal bs < 256 ^ bs.length := by
  induction bs with
  | nil => simp [leVal]
  | cons b bs ih =>
    have hb := b.isLt
    simp only [leVal, List.length_cons, Nat.pow_succ]
    omega

/-- Byte j of the big-endian sequence (00_scope.md R13). -/
theorem getElem?_beBytes (v n j : Nat) (h : j < n) : (beBytes v n)[j]? = some (BitVec.ofNat 8 (v / 256 ^ (n - 1 - j))) := by
  induction n generalizing j with
  | zero => omega
  | succ n ih =>
    cases j with
    | zero => simp [beBytes]
    | succ j =>
      have e : n + 1 - 1 - (j + 1) = n - 1 - j := by omega
      rw [e, beBytes, List.getElem?_cons_succ, ih j (by omega)]
/-- Byte j of the little-endian sequence (00_scope.md R13). -/
theorem getElem?_leBytes (v n j : Nat) (h : j < n) : (leBytes v n)[j]? = some (BitVec.ofNat 8 (v / 256 ^ j)) := by
  induction n generalizing v j with
  | zero => omega
  | succ n ih =>
    cases j with
    | zero => simp [leBytes]
    | succ j => simp [leBytes, ih (v / 256) j (by omega), Nat.div_div_eq_div_mul, Nat.pow_succ, Nat.mul_comm]

theorem beVal_beBytes (v n : Nat) : beVal (beBytes v n) = v % 256 ^ n := by
  induction n with
  | zero => simp [beBytes, beVal, Nat.mod_one]
  | succ n ih =>
    have h : v % 256 ^ (n + 1) = v % 256 ^ n + 256 ^ n * (v / 256 ^ n % 256) := by
      rw [Nat.pow_succ, Nat.mod_mul]
    simp only [beBytes, beVal, length_beBytes, BitVec.toNat_ofNat, ih, h, Nat.reducePow]
    rw [Nat.mul_comm]; omega
theorem leVal_leBytes (v n : Nat) : leVal (leBytes v n) = v % 256 ^ n := by
  induction n generalizing v with
  | zero => simp [leBytes, leVal, Nat.mod_one]
  | succ n ih =>
    have h : v % 256 ^ (n + 1) = v % 256 + 256 * (v / 256 % 256 ^ n) := by
      rw [Nat.pow_succ, Nat.mul_comm, Nat.mod_mul]
    simp [leBytes, leVal, ih, h]

theorem beBytes_mod (v n : Nat) : beBytes (v % 256 ^ n) n = beBytes v n := by
  apply List.ext_getElem?
  intro j
  by_cases h : j < n
  · rw [getElem?_beBytes _ _ _ h, getElem?_beBytes _ _ _ h]
    congr 1
    apply BitVec.eq_of_toNat_eq
    have e : (256 : Nat) ^ n = 256 ^ (n - 1 - j) * 256 * 256 ^ j := by
      rw [← Nat.pow_succ, ← Nat.pow_add]; congr 1; omega
    have h1 : v % 256 ^ n / 256 ^ (n - 1 - j) % 256 = v / 256 ^ (n - 1 - j) % 256 := by
      rw [e, Nat.mul_assoc, Nat.mod_mul_right_div_self, Nat.mod_mul_right_mod]
    simpa using h1
  · rw [List.getElem?_eq_none (by simpa using h), List.getElem?_eq_none (by simpa using h)]
theorem leBytes_mod (v n : Nat) : leBytes (v % 256 ^ n) n = leBytes v n := by
  induction n generalizing v with
  | zero => rfl
  | succ n ih =>
    have h2 : v % 256 ^ (n + 1) / 256 = v / 256 % 256 ^ n := by
      rw [Nat.pow_succ, Nat.mul_comm, Nat.mod_mul_right_div_self]
    simp only [leBytes, h2, ih]
    congr 1
    apply BitVec.eq_of_toNat_eq
    simp

theorem beBytes_beVal (bs : List Byte) : beBytes (beVal bs) bs.length = bs := by
  induction bs with
  | nil => rfl
  | cons b bs ih =>
    have h := beVal_lt bs
    have hp : 0 < 256 ^ bs.length := by positivity
    have h1 : (b.toNat * 256 ^ bs.length + beVal bs) / 256 ^ bs.length = b.toNat := by
      rw [Nat.mul_comm, Nat.mul_add_div hp, Nat.div_eq_of_lt h, Nat.add_zero]
    have h2 : beBytes (b.toNat * 256 ^ bs.length + beVal bs) bs.length = bs := by
      rw [← beBytes_mod, Nat.mul_comm, Nat.mul_add_mod, Nat.mod_eq_of_lt h, ih]
    simp [beVal, beBytes, h1, h2]
theorem leBytes_leVal (bs : List Byte) : leBytes (leVal bs) bs.length = bs := by
  induction bs with
  | nil => rfl
  | cons b bs ih =>
    have hb := b.isLt
    have h1 : (b.toNat + 256 * leVal bs) / 256 = leVal bs := by omega
    have h2 : BitVec.ofNat 8 (b.toNat + 256 * leVal bs) = b := by
      apply BitVec.eq_of_toNat_eq; simp only [BitVec.toNat_ofNat]; omega
    simp [leVal, leBytes, h1, h2, ih]

theorem beVal_append (a b : List Byte) : beVal (a ++ b) = beVal a * 256 ^ b.length + beVal b := by
  induction a with
  | nil => simp [beVal]
  | cons x a ih => simp [beVal, ih, Nat.pow_add]; ring
/-- Reading bytes from the far end in the other byte order gives the same integer. -/
theorem beVal_reverse (bs : List Byte) : beVal bs.reverse = leVal bs := by
  induction bs with
  | nil => rfl
  | cons b bs ih => simp [leVal, beVal_append, ih, beVal]; omega

end Sys2Proof.Machine
end

