-- ==== Sys2Proof/Laws/Decode.lean ====
section
/-! SUPPORT. The fields of a word of each format are the numbers it was made of (30_encoding.md R82 to R84). -/
namespace Sys2Proof

theorem Opcode.code_lt (o : Opcode) : o.code < 256 := by cases o <;> decide
theorem Opcode.ofCode_code (o : Opcode) : Opcode.ofCode o.code = some o := by cases o <;> decide

/-- The opcode a value stands for has that value. -/
theorem Opcode.code_of_ofCode {n : Nat} {o : Opcode} (h : Opcode.ofCode n = some o) : o.code = n := by
  have := List.find?_some h
  simpa using this

theorem field_lt (c : CmdWord) (hi lo : Nat) : field c hi lo < 2 ^ (hi + 1 - lo) := Nat.mod_lt _ (by positivity)

/-- The fields of a format-M word. -/
theorem field_wordM (op : Opcode) {rd ra rb rm xn : Nat} (h1 : rd < 16) (h2 : ra < 16) (h3 : rb < 16) (h4 : rm < 16)
    (h5 : xn < 16) :
    field (wordM op rd ra rb rm xn) 31 24 = op.code ∧ field (wordM op rd ra rb rm xn) 23 20 = rd ∧
      field (wordM op rd ra rb rm xn) 19 16 = ra ∧ field (wordM op rd ra rb rm xn) 15 12 = rb ∧
      field (wordM op rd ra rb rm xn) 11 8 = rm ∧ field (wordM op rd ra rb rm xn) 7 4 = xn ∧
      field (wordM op rd ra rb rm xn) 3 0 = 0 := by
  have h0 := op.code_lt
  simp only [field, wordM, BitVec.toNat_ofNat]
  omega
/-- The fields of a format-P word. -/
theorem field_wordP (op : Opcode) {rd ra rb : Nat} (h1 : rd < 16) (h2 : ra < 16) (h3 : rb < 16) :
    field (wordP op rd ra rb) 31 24 = op.code ∧ field (wordP op rd ra rb) 23 20 = rd ∧
      field (wordP op rd ra rb) 19 16 = ra ∧ field (wordP op rd ra rb) 15 12 = rb ∧
      field (wordP op rd ra rb) 11 0 = 0 := by
  have h0 := op.code_lt
  simp only [field, wordP, BitVec.toNat_ofNat]
  omega
/-- The fields of a format-C word. -/
theorem field_wordC (op : Opcode) {r off len : Nat} (h1 : r < 16) (h2 : off < 256) (h3 : len < 128) :
    field (wordC op r off len) 31 24 = op.code ∧ field (wordC op r off len) 23 20 = r ∧
      field (wordC op r off len) 19 12 = off ∧ field (wordC op r off len) 11 5 = len ∧
      field (wordC op r off len) 4 0 = 0 := by
  have h0 := op.code_lt
  simp only [field, wordC, BitVec.toNat_ofNat]
  omega

end Sys2Proof
end

