-- ==== Sys2Proof/Laws/State.lean ====
section
/-! SUPPORT. One lemma per field of State and update of it, so that no later proof unfolds a record update. -/
namespace Sys2Proof.Machine

section registers
variable (s : State)

@[simp] theorem readV_writeV_same (i : VReg) (a : Vec) : (s.writeV i a).readV i = a := by
  simp [State.readV, State.writeV, Vector.get_eq_getElem]
@[simp] theorem readV_writeV_ne {i j : VReg} (h : j ≠ i) (a : Vec) : (s.writeV i a).readV j = s.readV j := by
  have : i.val ≠ j.val := fun e => h (Fin.ext e.symm)
  simp [State.readV, State.writeV, Vector.get_eq_getElem, this]
@[simp] theorem readW_writeW_same (i : WReg) (a : Wide) : (s.writeW i a).readW i = a := by
  simp [State.readW, State.writeW, Vector.get_eq_getElem]
@[simp] theorem readW_writeW_ne {i j : WReg} (h : j ≠ i) (a : Wide) : (s.writeW i a).readW j = s.readW j := by
  have : i.val ≠ j.val := fun e => h (Fin.ext e.symm)
  simp [State.readW, State.writeW, Vector.get_eq_getElem, this]
@[simp] theorem readX_writeX_same (i : XReg) (a : Limb) : (s.writeX i a).readX i = a := by
  simp [State.readX, State.writeX, Vector.get_eq_getElem]
@[simp] theorem readX_writeX_ne {i j : XReg} (h : j ≠ i) (a : Limb) : (s.writeX i a).readX j = s.readX j := by
  have : i.val ≠ j.val := fun e => h (Fin.ext e.symm)
  simp [State.readX, State.writeX, Vector.get_eq_getElem, this]

@[simp] theorem readW_writeV (i : VReg) (a : Vec) (j : WReg) : (s.writeV i a).readW j = s.readW j := rfl
@[simp] theorem readX_writeV (i : VReg) (a : Vec) (j : XReg) : (s.writeV i a).readX j = s.readX j := rfl
@[simp] theorem b_writeV (i : VReg) (a : Vec) : (s.writeV i a).b = s.b := rfl
@[simp] theorem ill_writeV (i : VReg) (a : Vec) : (s.writeV i a).ill = s.ill := rfl
@[simp] theorem moves_writeV (i : VReg) (a : Vec) : (s.writeV i a).moves = s.moves := rfl
@[simp] theorem answers_writeV (i : VReg) (a : Vec) : (s.writeV i a).answers = s.answers := rfl
@[simp] theorem draws_writeV (i : VReg) (a : Vec) : (s.writeV i a).draws = s.draws := rfl

@[simp] theorem readV_writeW (i : WReg) (a : Wide) (j : VReg) : (s.writeW i a).readV j = s.readV j := rfl
@[simp] theorem readX_writeW (i : WReg) (a : Wide) (j : XReg) : (s.writeW i a).readX j = s.readX j := rfl
@[simp] theorem b_writeW (i : WReg) (a : Wide) : (s.writeW i a).b = s.b := rfl
@[simp] theorem ill_writeW (i : WReg) (a : Wide) : (s.writeW i a).ill = s.ill := rfl
@[simp] theorem moves_writeW (i : WReg) (a : Wide) : (s.writeW i a).moves = s.moves := rfl
@[simp] theorem answers_writeW (i : WReg) (a : Wide) : (s.writeW i a).answers = s.answers := rfl
@[simp] theorem draws_writeW (i : WReg) (a : Wide) : (s.writeW i a).draws = s.draws := rfl

@[simp] theorem readV_writeX (i : XReg) (a : Limb) (j : VReg) : (s.writeX i a).readV j = s.readV j := rfl
@[simp] theorem readW_writeX (i : XReg) (a : Limb) (j : WReg) : (s.writeX i a).readW j = s.readW j := rfl
@[simp] theorem b_writeX (i : XReg) (a : Limb) : (s.writeX i a).b = s.b := rfl
@[simp] theorem ill_writeX (i : XReg) (a : Limb) : (s.writeX i a).ill = s.ill := rfl
@[simp] theorem moves_writeX (i : XReg) (a : Limb) : (s.writeX i a).moves = s.moves := rfl
@[simp] theorem answers_writeX (i : XReg) (a : Limb) : (s.writeX i a).answers = s.answers := rfl
@[simp] theorem draws_writeX (i : XReg) (a : Limb) : (s.writeX i a).draws = s.draws := rfl

@[simp] theorem readV_with_b (m : Memory) (j : VReg) : State.readV { s with b := m } j = s.readV j := rfl
@[simp] theorem readW_with_b (m : Memory) (j : WReg) : State.readW { s with b := m } j = s.readW j := rfl
@[simp] theorem readX_with_b (m : Memory) (j : XReg) : State.readX { s with b := m } j = s.readX j := rfl
@[simp] theorem readV_with_ill (c : Bool) (j : VReg) : State.readV { s with ill := c } j = s.readV j := rfl
@[simp] theorem readW_with_ill (c : Bool) (j : WReg) : State.readW { s with ill := c } j = s.readW j := rfl
@[simp] theorem readX_with_ill (c : Bool) (j : XReg) : State.readX { s with ill := c } j = s.readX j := rfl
@[simp] theorem readV_with_moves (l : List Move) (j : VReg) : State.readV { s with moves := l } j = s.readV j := rfl
@[simp] theorem readW_with_moves (l : List Move) (j : WReg) : State.readW { s with moves := l } j = s.readW j := rfl
@[simp] theorem readX_with_moves (l : List Move) (j : XReg) : State.readX { s with moves := l } j = s.readX j := rfl
@[simp] theorem readV_give (a : Answer) (j : VReg) : (s.give a).readV j = s.readV j := rfl
@[simp] theorem readW_give (a : Answer) (j : WReg) : (s.give a).readW j = s.readW j := rfl
@[simp] theorem readX_give (a : Answer) (j : XReg) : (s.give a).readX j = s.readX j := rfl
@[simp] theorem b_give (a : Answer) : (s.give a).b = s.b := rfl
@[simp] theorem ill_give (a : Answer) : (s.give a).ill = s.ill := rfl
@[simp] theorem moves_give (a : Answer) : (s.give a).moves = s.moves := rfl
@[simp] theorem answers_give (a : Answer) : (s.give a).answers = s.answers ++ [a] := rfl
@[simp] theorem draws_give (a : Answer) : (s.give a).draws = s.draws := rfl

theorem status_eq : s.status = if s.ill then 1 else 0 := rfl

end registers

/-- Writing a register with what it already holds changes nothing. -/
theorem writeV_readV (s : State) (i : VReg) : s.writeV i (s.readV i) = s := by
  cases s; simp [State.writeV, State.readV, Vector.get_eq_getElem]
theorem writeW_readW (s : State) (i : WReg) : s.writeW i (s.readW i) = s := by
  cases s; simp [State.writeW, State.readW, Vector.get_eq_getElem]
theorem writeX_readX (s : State) (i : XReg) : s.writeX i (s.readX i) = s := by
  cases s; simp [State.writeX, State.readX, Vector.get_eq_getElem]

end Sys2Proof.Machine
end

