-- ==== Sys2Proof/Laws/Engine.lean ====
section
/-! SUPPORT. The engine's arithmetic: Rinv is the inverse of 2^256, a reduced value is unique, and the checks of the
conditions R151 are the conditions. -/
namespace Sys2Proof

open Sys2Proof.Machine

/-- `Rinv` is the inverse of 2^256 modulo an odd m. -/
theorem rInv_spec (m : Nat) (h : m % 2 = 1) : 2 ^ 256 * rInv m % m = 1 % m := by
  have e : 2 * ((m + 1) / 2) = m + 1 := by omega
  unfold rInv
  rw [Nat.mul_mod_mod, ← Nat.mul_pow, e, Nat.pow_mod, Nat.add_mod_left, ← Nat.pow_mod, Nat.one_pow]

/-- Multiplying by Rinv and reducing gives the one reduced value. -/
theorem isReduced_mul_rInv {m : Nat} (T : Nat) (h : m % 2 = 1) : IsReduced (T * rInv m % m) T m := by
  refine ⟨Nat.mod_lt _ (by omega), ?_⟩
  rw [Nat.mod_mul_mod, Nat.mul_assoc, Nat.mul_comm (rInv m), Nat.mul_mod, rInv_spec m h, ← Nat.mul_mod, Nat.mul_one]

theorem coprime_two_pow {m : Nat} (h : m % 2 = 1) (k : Nat) : Nat.Coprime m (2 ^ k) :=
  Nat.Coprime.pow_right k (Nat.odd_iff.2 h).coprime_two_right

/-- A reduced value is unique. -/
theorem isReduced_unique {r r' T m : Nat} (h : m % 2 = 1) (hr : IsReduced r T m) (hr' : IsReduced r' T m) : r = r' := by
  have e : r * 2 ^ 256 ≡ r' * 2 ^ 256 [MOD m] := hr.2.trans hr'.2.symm
  have e' : r ≡ r' [MOD m] := Nat.ModEq.cancel_right_of_coprime (coprime_two_pow h 256) e
  rw [← Nat.mod_eq_of_lt hr.1, ← Nat.mod_eq_of_lt hr'.1]
  exact e'

theorem inDomainMul_iff (a b m : Vec) (n0 : Limb) : inDomainMul a b m n0 = true ↔ MulDomain a b m n0 := by
  simp [inDomainMul, MulDomain, ModulusOk, pOdd, pN0, pBelow, and_assoc]
theorem inDomainOne_iff (a m : Vec) (n0 : Limb) : inDomainOne a m n0 = true ↔ OneDomain a m n0 := by
  simp [inDomainOne, OneDomain, ModulusOk, pOdd, pN0, pBelow, and_assoc]
theorem inDomainRed_iff (T : Wide) (m : Vec) (n0 : Limb) : inDomainRed T m n0 = true ↔ RedDomain T m n0 := by
  simp [inDomainRed, RedDomain, ModulusOk, pOdd, pN0, pT, and_assoc]
theorem inDomainAdd_iff (a b m : Vec) : inDomainAdd a b m = true ↔ AddDomain a b m := by
  simp [inDomainAdd, AddDomain, pOdd, pBelow, and_assoc]

/-- A number below a 256-bit modulus fits a V register. -/
theorem toNat_ofNat_mod (x : Nat) (m : Vec) (h : 0 < m.toNat) : (BitVec.ofNat 256 (x % m.toNat)).toNat = x % m.toNat := by
  rw [BitVec.toNat_ofNat]
  exact Nat.mod_eq_of_lt ((Nat.mod_lt _ h).trans m.isLt)

/- The value each engine command writes, in domain and out of it. -/

theorem mulValue_spec (a b m : Vec) (n0 : Limb) :
    (MulDomain a b m n0 → IsReduced (mulValue a b m n0).toNat (a.toNat * b.toNat) m.toNat) ∧
      (¬ MulDomain a b m n0 → mulValue a b m n0 = Config.oodMmul a b m n0) := by
  rw [← inDomainMul_iff]
  refine ⟨fun h => ?_, fun h => if_neg h⟩
  have hm := ((inDomainMul_iff _ _ _ _).1 h).1
  rw [mulValue, if_pos h, toNat_ofNat_mod _ _ (by omega)]
  exact isReduced_mul_rInv _ hm.1
/-- MSQR's value is MMUL's with the operand twice. -/
theorem sqrValue_eq (a m : Vec) (n0 : Limb) : sqrValue a m n0 = mulValue a a m n0 := by
  simp [sqrValue, mulValue, inDomainOne, inDomainMul]
theorem redValue_spec (T : Wide) (m : Vec) (n0 : Limb) :
    (RedDomain T m n0 → IsReduced (redValue T m n0).toNat T.toNat m.toNat) ∧
      (¬ RedDomain T m n0 → redValue T m n0 = Config.oodMred T m n0) := by
  rw [← inDomainRed_iff]
  refine ⟨fun h => ?_, fun h => if_neg h⟩
  have hm := ((inDomainRed_iff _ _ _).1 h).1
  rw [redValue, if_pos h, toNat_ofNat_mod _ _ (by omega)]
  exact isReduced_mul_rInv _ hm.1
theorem fromValue_spec (a m : Vec) (n0 : Limb) :
    (OneDomain a m n0 → IsReduced (fromValue a m n0).toNat a.toNat m.toNat) ∧
      (¬ OneDomain a m n0 → fromValue a m n0 = Config.oodMfrom a m n0) := by
  rw [← inDomainOne_iff]
  refine ⟨fun h => ?_, fun h => if_neg h⟩
  have hm := ((inDomainOne_iff _ _ _).1 h).1
  rw [fromValue, if_pos h, toNat_ofNat_mod _ _ (by omega)]
  exact isReduced_mul_rInv _ hm.1
theorem addValue_spec (a b m : Vec) :
    (AddDomain a b m → (addValue a b m).toNat = (a.toNat + b.toNat) % m.toNat) ∧
      (¬ AddDomain a b m → addValue a b m = Config.oodMadd a b m) := by
  rw [← inDomainAdd_iff]
  refine ⟨fun h => ?_, fun h => if_neg h⟩
  have hm := ((inDomainAdd_iff _ _ _).1 h).1
  rw [addValue, if_pos h, toNat_ofNat_mod _ _ (by omega)]
theorem subValue_spec (a b m : Vec) :
    (AddDomain a b m → (subValue a b m).toNat = (a.toNat + m.toNat - b.toNat) % m.toNat) ∧
      (¬ AddDomain a b m → subValue a b m = Config.oodMsub a b m) := by
  rw [← inDomainAdd_iff]
  refine ⟨fun h => ?_, fun h => if_neg h⟩
  have hm := ((inDomainAdd_iff _ _ _).1 h).1
  rw [subValue, if_pos h, toNat_ofNat_mod _ _ (by omega)]

/-- One step of the word-serial reduction makes the next limb zero, keeps the value modulo m, and adds less than a limb's
worth of m at that limb. -/
theorem redcStep_spec {T m n0 i : Nat} (hn : m * n0 % 2 ^ 64 = 2 ^ 64 - 1) (h0 : 2 ^ (64 * i) ∣ T) :
    2 ^ (64 * (i + 1)) ∣ redcStep m n0 T i ∧ redcStep m n0 T i % m = T % m ∧
      redcStep m n0 T i ≤ T + (2 ^ 64 - 1) * m * 2 ^ (64 * i) := by
  have hq : redcQ n0 T i ≤ 2 ^ 64 - 1 := Nat.le_sub_one_of_lt (Nat.mod_lt _ (by positivity))
  refine ⟨?_, by rw [redcStep, Nat.mul_right_comm, Nat.add_mul_mod_self_right],
    Nat.add_le_add_left (Nat.mul_le_mul_right _ (Nat.mul_le_mul_right m hq)) T⟩
  obtain ⟨t, rfl⟩ := h0
  have e : redcQ n0 (2 ^ (64 * i) * t) i * m ≡ t * (2 ^ 64 - 1) [MOD 2 ^ 64] := by
    rw [redcQ, Nat.mul_div_cancel_left _ (by positivity)]
    have h1 : t % 2 ^ 64 * n0 % 2 ^ 64 * m ≡ t * n0 * m [MOD 2 ^ 64] := by simp [Nat.ModEq, Nat.mul_assoc]
    have h2 : m * n0 ≡ 2 ^ 64 - 1 [MOD 2 ^ 64] := hn
    refine h1.trans ?_
    rw [Nat.mul_assoc, Nat.mul_comm n0]
    exact h2.mul_left t
  obtain ⟨k, hk⟩ : 2 ^ 64 ∣ t + redcQ n0 (2 ^ (64 * i) * t) i * m := by
    refine (Nat.modEq_zero_iff_dvd).1 ((e.add_left t).trans ?_)
    rw [show t + t * (2 ^ 64 - 1) = 2 ^ 64 * t by omega]
    simp [Nat.ModEq]
  refine ⟨k, ?_⟩
  rw [redcStep, Nat.mul_comm (2 ^ (64 * i)) t, ← Nat.add_mul, Nat.mul_comm t, hk]
  ring

/-- What a step that writes one V register changes. -/
theorem changesOnly_writeV (s : State) (i : VReg) (a : Vec) : ChangesOnly [.v i] s (s.writeV i a) := by
  refine ⟨fun j hj => ?_, fun _ _ => rfl, fun _ _ => rfl, fun _ _ => rfl, rfl, rfl, rfl, rfl⟩
  exact readV_writeV_ne s (fun e => hj (by simp [e])) a
theorem changesOnly_writeW (s : State) (i : WReg) (a : Wide) : ChangesOnly [.w i] s (s.writeW i a) := by
  refine ⟨fun _ _ => rfl, fun j hj => ?_, fun _ _ => rfl, fun _ _ => rfl, rfl, rfl, rfl, rfl⟩
  exact readW_writeW_ne s (fun e => hj (by simp [e])) a
theorem changesOnly_writeX (s : State) (i : XReg) (a : Limb) : ChangesOnly [.x i] s (s.writeX i a) := by
  refine ⟨fun _ _ => rfl, fun _ _ => rfl, fun j hj => ?_, fun _ _ => rfl, rfl, rfl, rfl, rfl⟩
  exact readX_writeX_ne s (fun e => hj (by simp [e])) a

end Sys2Proof
end

