-- ==== Sys2Proof/Laws/Flags.lean ====
section
/-! SUPPORT. The testers by value: gathering limbs by OR is zero exactly when every limb is, which is when the value is. -/
namespace Sys2Proof.Machine

theorem isZero_eq (l : Limb) : isZero l = if l = 0 then 1 else 0 := by simp [isZero, flag]

theorem limbV_toNat (a : Vec) (k : Nat) : (limbV a k).toNat = a.toNat / 2 ^ (64 * k) % 2 ^ 64 := by
  simp [limbV, BitVec.extractLsb'_toNat, Nat.shiftRight_eq_div_pow]
theorem limbW_toNat (a : Wide) (k : Nat) : (limbW a k).toNat = a.toNat / 2 ^ (64 * k) % 2 ^ 64 := by
  simp [limbW, BitVec.extractLsb'_toNat, Nat.shiftRight_eq_div_pow]

/-- A register is its limbs: four limbs settle a 256-bit value (00_scope.md R12). -/
theorem vec_eq_iff_limbs (a b : Vec) : a = b ↔ ∀ k ∈ [0, 1, 2, 3], limbV a k = limbV b k := by
  refine ⟨fun h _ _ => by rw [h], fun h => ?_⟩
  have h' : ∀ k ∈ [0, 1, 2, 3], a.toNat / 2 ^ (64 * k) % 2 ^ 64 = b.toNat / 2 ^ (64 * k) % 2 ^ 64 := fun k hk => by
    rw [← limbV_toNat, ← limbV_toNat, h k hk]
  have h0 := h' 0 (by simp)
  have h1 := h' 1 (by simp)
  have h2 := h' 2 (by simp)
  have h3 := h' 3 (by simp)
  have ha := a.isLt
  have hb := b.isLt
  apply BitVec.eq_of_toNat_eq
  norm_num at h0 h1 h2 h3
  omega
/-- Eight limbs settle a 512-bit value (00_scope.md R12). -/
theorem wide_eq_iff_limbs (a b : Wide) : a = b ↔ ∀ k ∈ [0, 1, 2, 3, 4, 5, 6, 7], limbW a k = limbW b k := by
  refine ⟨fun h _ _ => by rw [h], fun h => ?_⟩
  have h' : ∀ k ∈ [0, 1, 2, 3, 4, 5, 6, 7], a.toNat / 2 ^ (64 * k) % 2 ^ 64 = b.toNat / 2 ^ (64 * k) % 2 ^ 64 := fun k hk => by
    rw [← limbW_toNat, ← limbW_toNat, h k hk]
  have h0 := h' 0 (by simp)
  have h1 := h' 1 (by simp)
  have h2 := h' 2 (by simp)
  have h3 := h' 3 (by simp)
  have h4 := h' 4 (by simp)
  have h5 := h' 5 (by simp)
  have h6 := h' 6 (by simp)
  have h7 := h' 7 (by simp)
  have ha := a.isLt
  have hb := b.isLt
  apply BitVec.eq_of_toNat_eq
  norm_num at h0 h1 h2 h3 h4 h5 h6 h7
  omega

theorem foldl_or_eq_zero_iff (f : Nat → Limb) (ks : List Nat) (acc : Limb) :
    ks.foldl (fun acc k => acc ||| f k) acc = 0 ↔ acc = 0 ∧ ∀ k ∈ ks, f k = 0 := by
  induction ks generalizing acc with
  | nil => simp
  | cons k ks ih =>
    have h : acc ||| f k = 0 ↔ acc = 0 ∧ f k = 0 := BitVec.or_eq_zero_iff
    rw [List.foldl_cons, ih, h, List.forall_mem_cons, and_assoc]

theorem vecIsZero_eq (a : Vec) : vecIsZero a = if a = 0 then 1 else 0 := by
  rw [vecIsZero, isZero_eq, orLimbsV]
  congr 1
  rw [foldl_or_eq_zero_iff, vec_eq_iff_limbs a 0, eq_iff_iff]
  simp [limbV]
theorem wideIsZero_eq (a : Wide) : wideIsZero a = if a = 0 then 1 else 0 := by
  rw [wideIsZero, isZero_eq, orLimbsW]
  congr 1
  rw [foldl_or_eq_zero_iff, wide_eq_iff_limbs a 0, eq_iff_iff]
  simp [limbW]
theorem vecIsEqual_eq (a b : Vec) : vecIsEqual a b = if a = b then 1 else 0 := by
  rw [vecIsEqual, isZero_eq, diffLimbsV]
  congr 1
  rw [foldl_or_eq_zero_iff (fun k => limbV a k ^^^ limbV b k), vec_eq_iff_limbs a b, eq_iff_iff]
  simp
theorem wideIsEqual_eq (a b : Wide) : wideIsEqual a b = if a = b then 1 else 0 := by
  rw [wideIsEqual, isZero_eq, diffLimbsW]
  congr 1
  rw [foldl_or_eq_zero_iff (fun k => limbW a k ^^^ limbW b k), wide_eq_iff_limbs a b, eq_iff_iff]
  simp

end Sys2Proof.Machine
end

