-- ==== Sys2Proof/Laws/Memory.lean ====
section
/-! SUPPORT. The buffer: read after write, what a run of bytes reads and writes, and that every operation keeps the one form
of the buffer (`Memory.wf`). -/
namespace Sys2Proof.Machine

theorem Memory.read_none_iff (m : Memory) (a : Nat) : m.read a = none ↔ a ∉ m.map Prod.fst := by
  induction m with
  | nil => simp [Memory.read]
  | cons c m ih =>
    by_cases h : c.1 = a
    · simp [Memory.read, h]
    · have h' : a ≠ c.1 := fun e => h e.symm
      simp [Memory.read, h, ih, h']

/-- A write answers the cells with the one byte replaced: same addresses, the byte there, every other byte as before. -/
theorem Memory.write_spec {m m' : Memory} {a : Nat} {b : Byte} (h : m.write a b = some m') :
    m'.map Prod.fst = m.map Prod.fst ∧ m'.read a = some b ∧ ∀ a', a' ≠ a → m'.read a' = m.read a' := by
  induction m generalizing m' with
  | nil => simp [Memory.write] at h
  | cons c m ih =>
    by_cases hc : c.1 = a
    · simp only [Memory.write, hc, if_true, Option.some.injEq] at h
      subst h
      refine ⟨by simp [hc], by simp [Memory.read], fun a' ha => ?_⟩
      simp [Memory.read, hc, ha.symm]
    · simp only [Memory.write, hc, if_false, Option.map_eq_some_iff] at h
      obtain ⟨n, hn, rfl⟩ := h
      obtain ⟨h1, h2, h3⟩ := ih hn
      refine ⟨by simp [h1], by simp [Memory.read, hc, h2], fun a' ha => ?_⟩
      by_cases hc' : c.1 = a'
      · simp [Memory.read, hc']
      · simp [Memory.read, hc', h3 a' ha]

theorem Memory.write_isSome {m : Memory} {a : Nat} (b : Byte) (h : a ∈ m.map Prod.fst) : ∃ m', m.write a b = some m' := by
  induction m with
  | nil => simp at h
  | cons c m ih =>
    by_cases hc : c.1 = a
    · exact ⟨(a, b) :: m, by simp [Memory.write, hc]⟩
    · have h' : a ∈ m.map Prod.fst := by
        simp only [List.map_cons, List.mem_cons] at h
        exact h.resolve_left fun e => hc e.symm
      obtain ⟨m', hm⟩ := ih h'
      exact ⟨c :: m', by simp [Memory.write, hc, hm]⟩

theorem Memory.write_wf {m m' : Memory} {a : Nat} {b : Byte} (hw : m.wf) (h : m.write a b = some m') : m'.wf := by
  rw [Memory.wf, (Memory.write_spec h).1]; exact hw

/-- In a well-formed buffer exactly the addresses 0 .. 255 hold a byte. -/
theorem Memory.read_isSome_iff {m : Memory} (hw : m.wf) (a : Nat) : (∃ b, m.read a = some b) ↔ a < 256 := by
  have h := Memory.read_none_iff m a
  rw [hw, List.mem_range] at h
  rw [← Option.isSome_iff_exists, ← Option.not_isSome_iff_eq_none] at *
  tauto

theorem Memory.write_isSome_of_wf {m : Memory} (hw : m.wf) {a : Nat} (ha : a < 256) (b : Byte) :
    ∃ m', m.write a b = some m' := by
  apply Memory.write_isSome
  rw [hw]
  exact List.mem_range.2 ha

/-- What a run of bytes reads: as many as asked for, each the byte at its address. -/
theorem Memory.readBytes_spec {m : Memory} {addr n : Nat} {bs : List Byte} (h : m.readBytes addr n = some bs) :
    bs.length = n ∧ ∀ j, j < n → bs[j]? = m.read (addr + j) := by
  induction n generalizing addr bs with
  | zero => simp only [Memory.readBytes, Option.some.injEq] at h; subst h; simp
  | succ n ih =>
    unfold Memory.readBytes at h
    split at h
    · rename_i b bs' hb hbs
      simp only [Option.some.injEq] at h
      subst h
      obtain ⟨h1, h2⟩ := ih hbs
      refine ⟨by simp [h1], fun j hj => ?_⟩
      cases j with
      | zero => simp [hb]
      | succ j =>
        have := h2 j (by omega)
        simpa [Nat.add_assoc, Nat.add_comm 1 j] using this
    · simp at h

theorem Memory.readBytes_isSome {m : Memory} (hw : m.wf) {addr n : Nat} (h : addr + n ≤ 256) :
    ∃ bs, m.readBytes addr n = some bs := by
  induction n generalizing addr with
  | zero => exact ⟨[], rfl⟩
  | succ n ih =>
    obtain ⟨b, hb⟩ := (Memory.read_isSome_iff hw addr).2 (by omega)
    obtain ⟨bs, hbs⟩ := ih (addr := addr + 1) (by omega)
    exact ⟨b :: bs, by simp [Memory.readBytes, hb, hbs]⟩

/-- What a run of bytes writes: the bytes from `addr` on, and nothing else. -/
theorem Memory.writeBytes_spec {m m' : Memory} {addr : Nat} {bs : List Byte} (h : m.writeBytes addr bs = some m') :
    m'.map Prod.fst = m.map Prod.fst ∧
      (∀ j, j < bs.length → m'.read (addr + j) = bs[j]?) ∧
      ∀ a, a < addr ∨ addr + bs.length ≤ a → m'.read a = m.read a := by
  induction bs generalizing m addr with
  | nil => simp only [Memory.writeBytes, Option.some.injEq] at h; subst h; simp
  | cons b bs ih =>
    unfold Memory.writeBytes at h
    split at h
    · rename_i n hn
      obtain ⟨w1, w2, w3⟩ := Memory.write_spec hn
      obtain ⟨h1, h2, h3⟩ := ih h
      refine ⟨h1.trans w1, fun j hj => ?_, fun a ha => ?_⟩
      · cases j with
        | zero => simpa [w2] using h3 addr (by omega)
        | succ j =>
          have := h2 j (by simpa using hj)
          simpa [Nat.add_assoc, Nat.add_comm 1 j] using this
      · simp only [List.length_cons] at ha
        rw [h3 a (by omega), w3 a (by omega)]
    · simp at h

theorem Memory.writeBytes_wf {m m' : Memory} {addr : Nat} {bs : List Byte} (hw : m.wf)
    (h : m.writeBytes addr bs = some m') : m'.wf := by
  rw [Memory.wf, (Memory.writeBytes_spec h).1]; exact hw

theorem Memory.writeBytes_isSome {m : Memory} (hw : m.wf) {addr : Nat} {bs : List Byte} (h : addr + bs.length ≤ 256) :
    ∃ m', m.writeBytes addr bs = some m' := by
  induction bs generalizing m addr with
  | nil => exact ⟨m, rfl⟩
  | cons b bs ih =>
    simp only [List.length_cons] at h
    obtain ⟨n, hn⟩ := Memory.write_isSome_of_wf hw (a := addr) (by omega) b
    obtain ⟨m', hm⟩ := ih (Memory.write_wf hw hn) (addr := addr + 1) (by omega)
    exact ⟨m', by simp [Memory.writeBytes, hn, hm]⟩

/-- The reset image has the buffer's one form. -/
theorem Memory.image_wf (d : Nat) : (Memory.image d).wf := by
  simp [Memory.wf, Memory.image, Function.comp_def]

end Sys2Proof.Machine
end

