-- ==== Sys2Proof/Laws/Ops.lean ====
section
/-! SUPPORT. What each shared operation can do, said once: loads, stores, a command, a host move, a step. -/
namespace Sys2Proof

open Sys2Proof.Machine

theorem lengthLegal_eq (n off len : Nat) : lengthLegal n off len = conversionWellFormed n off len := by
  simp [lengthLegal, conversionWellFormed, Bool.and_assoc]

/-- Decoding succeeds exactly through the three conditions of R86. -/
theorem decode_ok_iff (c : CmdWord) (i : Instr) :
    decode c = .ok i ↔
      ∃ o, Opcode.ofCode (field c 31 24) = some o ∧ o.zerosOk c = true ∧ o.rangeOk c = true ∧ o.operands c = i := by
  unfold decode
  cases h : Opcode.ofCode (field c 31 24) with
  | none => simp
  | some o => cases hz : o.zerosOk c <;> cases hr : o.rangeOk c <;> simp [hz, hr]

/-- A load that answers a next state wrote the register, or raised Illegal. -/
theorem loadV_next {val : List Byte → Nat} {vd : VReg} {off len : Nat} {s t : State} (h : loadV val vd off len s = .next t) :
    (lengthLegal 32 off len = true ∧ ∃ bs, s.b.readBytes off len = some bs ∧ t = s.writeV vd (BitVec.ofNat 256 (val bs))) ∨
      (lengthLegal 32 off len = false ∧ t = { s with ill := true }) := by
  unfold loadV at h
  cases hl : lengthLegal 32 off len with
  | true =>
    simp only [Config.maxLenV, hl, if_true] at h
    split at h
    · rename_i bs hbs
      exact .inl ⟨rfl, bs, hbs, (Host.Outcome.next.inj h).symm⟩
    · cases h
  | false =>
    simp only [Config.maxLenV, hl, raiseIllegal, Bool.false_eq_true, if_false] at h
    exact .inr ⟨rfl, (Host.Outcome.next.inj h).symm⟩
theorem loadW_next {val : List Byte → Nat} {wd : WReg} {off len : Nat} {s t : State} (h : loadW val wd off len s = .next t) :
    (lengthLegal 64 off len = true ∧ ∃ bs, s.b.readBytes off len = some bs ∧ t = s.writeW wd (BitVec.ofNat 512 (val bs))) ∨
      (lengthLegal 64 off len = false ∧ t = { s with ill := true }) := by
  unfold loadW at h
  cases hl : lengthLegal 64 off len with
  | true =>
    simp only [Config.maxLenW, hl, if_true] at h
    split at h
    · rename_i bs hbs
      exact .inl ⟨rfl, bs, hbs, (Host.Outcome.next.inj h).symm⟩
    · cases h
  | false =>
    simp only [Config.maxLenW, hl, raiseIllegal, Bool.false_eq_true, if_false] at h
    exact .inr ⟨rfl, (Host.Outcome.next.inj h).symm⟩
/-- A store that answers a next state wrote the bytes, or raised Illegal. -/
theorem storeBytes_next {n : Nat} {bytes : Nat → Nat → List Byte} {v off len : Nat} {s t : State}
    (h : storeBytes n bytes v off len s = .next t) :
    (lengthLegal n off len = true ∧ ∃ m, s.b.writeBytes off (bytes (v % 256 ^ len) len) = some m ∧ t = { s with b := m }) ∨
      (lengthLegal n off len = false ∧ t = { s with ill := true }) := by
  unfold storeBytes at h
  cases hl : lengthLegal n off len with
  | true =>
    simp only [hl, if_true] at h
    split at h
    · rename_i m hm
      exact .inl ⟨rfl, m, hm, (Host.Outcome.next.inj h).symm⟩
    · cases h
  | false =>
    simp only [hl, raiseIllegal, Bool.false_eq_true, if_false] at h
    exact .inr ⟨rfl, (Host.Outcome.next.inj h).symm⟩

/-- A legal load from a well-formed buffer completes. -/
theorem loadV_completes {val : List Byte → Nat} {vd : VReg} {off len : Nat} {s : State} (hw : s.b.wf)
    (hl : lengthLegal 32 off len = true) :
    ∃ bs, s.b.readBytes off len = some bs ∧ loadV val vd off len s = .next (s.writeV vd (BitVec.ofNat 256 (val bs))) := by
  have h : off + len ≤ 256 := by simp [lengthLegal] at hl; omega
  obtain ⟨bs, hbs⟩ := Memory.readBytes_isSome hw h
  exact ⟨bs, hbs, by simp [loadV, hl, hbs]⟩
theorem loadW_completes {val : List Byte → Nat} {wd : WReg} {off len : Nat} {s : State} (hw : s.b.wf)
    (hl : lengthLegal 64 off len = true) :
    ∃ bs, s.b.readBytes off len = some bs ∧ loadW val wd off len s = .next (s.writeW wd (BitVec.ofNat 512 (val bs))) := by
  have h : off + len ≤ 256 := by simp [lengthLegal] at hl; omega
  obtain ⟨bs, hbs⟩ := Memory.readBytes_isSome hw h
  exact ⟨bs, hbs, by simp [loadW, hl, hbs]⟩
/-- A legal store to a well-formed buffer completes. -/
theorem storeBytes_completes {n : Nat} {bytes : Nat → Nat → List Byte} {v off len : Nat} {s : State} (hw : s.b.wf)
    (hb : (bytes (v % 256 ^ len) len).length = len) (hl : lengthLegal n off len = true) :
    ∃ m, s.b.writeBytes off (bytes (v % 256 ^ len) len) = some m ∧ storeBytes n bytes v off len s = .next { s with b := m } := by
  have h : off + len ≤ 256 := by simp [lengthLegal] at hl; omega
  obtain ⟨m, hm⟩ := Memory.writeBytes_isSome hw (addr := off) (bs := bytes (v % 256 ^ len) len) (by omega)
  exact ⟨m, hm, by simp [storeBytes, hl, hm]⟩

theorem lengthLegal_of {n off len : Nat} (h1 : 1 ≤ len) (h2 : len ≤ n) (h3 : off + len ≤ 256) : lengthLegal n off len = true := by
  simp [lengthLegal]; omega

/-- A well-formed load writes the exact integer of the bytes it read: up to 32 bytes fit a V register. -/
theorem loadV_spec {val : List Byte → Nat} (hv : ∀ bs, val bs < 256 ^ bs.length) {s : State} {off : Off} {len : Len}
    (vd : VReg) (hi : s.b.wf) (h1 : 1 ≤ len.val) (h2 : len.val ≤ 32) (h3 : off.val + len.val ≤ 256) :
    ∃ bs, s.b.readBytes off len = some bs ∧ loadV val vd off len s = .next (s.writeV vd (BitVec.ofNat 256 (val bs))) ∧
      (BitVec.ofNat 256 (val bs)).toNat = val bs := by
  obtain ⟨bs, hb, h⟩ := loadV_completes (val := val) (vd := vd) hi (lengthLegal_of h1 h2 h3)
  refine ⟨bs, hb, h, ?_⟩
  have hlt : val bs < 256 ^ 32 := (hv bs).trans_le (Nat.pow_le_pow_right (by decide) (by
    rw [(Memory.readBytes_spec hb).1]; exact h2))
  rw [BitVec.toNat_ofNat]
  exact Nat.mod_eq_of_lt (hlt.trans_le (Nat.pow_mul 2 8 32).ge)
/-- Up to 64 bytes fit a W register. -/
theorem loadW_spec {val : List Byte → Nat} (hv : ∀ bs, val bs < 256 ^ bs.length) {s : State} {off : Off} {len : Len}
    (wd : WReg) (hi : s.b.wf) (h1 : 1 ≤ len.val) (h2 : len.val ≤ 64) (h3 : off.val + len.val ≤ 256) :
    ∃ bs, s.b.readBytes off len = some bs ∧ loadW val wd off len s = .next (s.writeW wd (BitVec.ofNat 512 (val bs))) ∧
      (BitVec.ofNat 512 (val bs)).toNat = val bs := by
  obtain ⟨bs, hb, h⟩ := loadW_completes (val := val) (wd := wd) hi (lengthLegal_of h1 h2 h3)
  refine ⟨bs, hb, h, ?_⟩
  have hlt : val bs < 256 ^ 64 := (hv bs).trans_le (Nat.pow_le_pow_right (by decide) (by
    rw [(Memory.readBytes_spec hb).1]; exact h2))
  rw [BitVec.toNat_ofNat]
  exact Nat.mod_eq_of_lt (hlt.trans_le (Nat.pow_mul 2 8 64).ge)

theorem mem_bufferRange {a off len : Nat} : Place.b a ∈ bufferRange off len ↔ off ≤ a ∧ a < off + len := by
  simp only [bufferRange, List.mem_map, List.mem_range, Place.b.injEq]
  exact ⟨fun ⟨j, hj, e⟩ => by omega, fun h => ⟨a - off, by omega, by omega⟩⟩

/-- What a store changes. -/
theorem changesOnly_writeBytes {s : State} {m : Memory} {off : Nat} {bs : List Byte} (h : s.b.writeBytes off bs = some m) :
    ChangesOnly (bufferRange off bs.length) s { s with b := m } := by
  refine ⟨fun _ _ => rfl, fun _ _ => rfl, fun _ _ => rfl, fun a ha => ?_, rfl, rfl, rfl, rfl⟩
  rw [mem_bufferRange] at ha
  exact (Memory.writeBytes_spec h).2.2 a (by omega)

/-- A well-formed store writes the bytes of its value, and changes nothing but them. -/
theorem storeBytes_spec {n : Nat} {bytes : Nat → Nat → List Byte} (hlen : ∀ v n, (bytes v n).length = n)
    (hmod : ∀ v n, bytes (v % 256 ^ n) n = bytes v n) {s : State} {off : Off} {len : Len} (v : Nat) (hi : s.b.wf)
    (h1 : 1 ≤ len.val) (h2 : len.val ≤ n) (h3 : off.val + len.val ≤ 256) :
    ∃ m, storeBytes n bytes v off len s = .next { s with b := m } ∧ ChangesOnly (bufferRange off len) s { s with b := m } ∧
      m.wf ∧ ∀ j, j < len.val → m.read (off + j) = (bytes v len)[j]? := by
  obtain ⟨m, hm, h⟩ := storeBytes_completes (v := v) hi (hlen _ _) (lengthLegal_of h1 h2 h3)
  have hc := changesOnly_writeBytes hm
  rw [hlen] at hc
  refine ⟨m, h, hc, Memory.writeBytes_wf hi hm, fun j hj => ?_⟩
  rw [(Memory.writeBytes_spec hm).2.1 j (by rw [hlen]; exact hj), hmod]

/-- A place that a change does not name, STATUS among them, looks as before. -/
theorem ChangesOnly.look {ps : List Place} {s t : State} (h : ChangesOnly ps s t) {p : Place} (hp : p ∉ ps) :
    t.look p = s.look p := by
  cases p with
  | v i => simp [State.look, h.v i hp]
  | w i => simp [State.look, h.w i hp]
  | x i => simp [State.look, h.x i hp]
  | b a => simp [State.look, h.b a hp]
  | status => simp [State.look, State.status, h.ill]

/-- STATUS looks the same in two states exactly when ILL is the same. -/
theorem look_status_eq_iff (s t : State) : s.look .status = t.look .status ↔ s.ill = t.ill := by
  cases hs : s.ill <;> cases ht : t.ill <;> simp [State.look, State.status, hs, ht]

/-- The trace of a legal word: STATUS and what its command reads, and what its command writes. -/
theorem traceOf_legal {c : CmdWord} {i : Instr} (h : decode c = .ok i) :
    (traceOf c).reads = .status :: reads i ∧ (traceOf c).writes = writes i := by simp [traceOf, h]
/-- The trace of an illegal word: STATUS alone. -/
theorem traceOf_illegal {c : CmdWord} {e : DecodeError} (h : decode c = .error e) :
    (traceOf c).reads = [.status] ∧ (traceOf c).writes = [.status] := by simp [traceOf, h]
/-- No legal command writes STATUS (10_state.md R25). -/
theorem status_not_mem_writes (i : Instr) : Place.status ∉ writes i := by cases i <;> simp [writes, bufferRange]

/-- A command that answers a next state wrote one register, or a run of bytes, or (its length or range not being legal)
raised Illegal; in each case at the places `writes` names. -/
theorem exec_next_cases {i : Instr} {s t : State} (h : exec i s = .next t) :
    (i.wellFormed = true ∧
      ((∃ vd a, writes i = [.v vd] ∧ t = s.writeV vd a) ∨
       (∃ wd a, writes i = [.w wd] ∧ t = s.writeW wd a) ∨
       (∃ xd a, writes i = [.x xd] ∧ t = s.writeX xd a) ∨
       (∃ off bs m, writes i = bufferRange off bs.length ∧ s.b.writeBytes off bs = some m ∧ t = { s with b := m }))) ∨
    (i.wellFormed = false ∧ t = { s with ill := true }) := by
  have load : ∀ {val : List Byte → Nat} {vd : VReg} {off : Off} {len : Len}, loadV val vd off len s = .next t →
      (conversionWellFormed 32 off len = true ∧ ∃ a, t = s.writeV vd a) ∨
        (conversionWellFormed 32 off len = false ∧ t = { s with ill := true }) := fun {_ _ _ _} h => by
    rw [← lengthLegal_eq]
    rcases loadV_next h with ⟨hl, bs, -, e⟩ | h
    · exact .inl ⟨hl, _, e⟩
    · exact .inr h
  have wload : ∀ {val : List Byte → Nat} {wd : WReg} {off : Off} {len : Len}, loadW val wd off len s = .next t →
      (conversionWellFormed 64 off len = true ∧ ∃ a, t = s.writeW wd a) ∨
        (conversionWellFormed 64 off len = false ∧ t = { s with ill := true }) := fun {_ _ _ _} h => by
    rw [← lengthLegal_eq]
    rcases loadW_next h with ⟨hl, bs, -, e⟩ | h
    · exact .inl ⟨hl, _, e⟩
    · exact .inr h
  have store : ∀ {n : Nat} {bytes : Nat → Nat → List Byte} {v : Nat} {off : Off} {len : Len}, (∀ v n, (bytes v n).length = n) →
      storeBytes n bytes v off len s = .next t →
      (conversionWellFormed n off len = true ∧
        ∃ o bs m, bufferRange off len = bufferRange o bs.length ∧ s.b.writeBytes o bs = some m ∧ t = { s with b := m }) ∨
        (conversionWellFormed n off len = false ∧ t = { s with ill := true }) := fun {_ _ _ _ _} hb h => by
    rw [← lengthLegal_eq]
    rcases storeBytes_next h with ⟨hl, m, hm, e⟩ | h
    · exact .inl ⟨hl, _, _, m, by rw [hb], hm, e⟩
    · exact .inr h
  cases i with
  | mmul vd | msqr vd | mred vd | mfrom vd | madd vd | msub vd | vcpy vd | vzero vd =>
    exact .inl ⟨rfl, .inl ⟨vd, _, rfl, (Host.Outcome.next.inj h).symm⟩⟩
  | wcpy wd | wzero wd => exact .inl ⟨rfl, .inr (.inl ⟨wd, _, rfl, (Host.Outcome.next.inj h).symm⟩)⟩
  | isz xd | visz xd | wisz xd | veq xd | weq xd =>
    exact .inl ⟨rfl, .inr (.inr (.inl ⟨xd, _, rfl, (Host.Outcome.next.inj h).symm⟩))⟩
  | vldbe vd | vldle vd =>
    rcases load h with ⟨hw, a, e⟩ | h
    · exact .inl ⟨hw, .inl ⟨vd, a, rfl, e⟩⟩
    · exact .inr h
  | wldbe wd | wldle wd =>
    rcases wload h with ⟨hw, a, e⟩ | h
    · exact .inl ⟨hw, .inr (.inl ⟨wd, a, rfl, e⟩)⟩
    · exact .inr h
  | vstbe | wstbe =>
    rcases store length_beBytes h with ⟨hw, h⟩ | h
    · exact .inl ⟨hw, .inr (.inr (.inr h))⟩
    · exact .inr h
  | vstle | wstle =>
    rcases store length_leBytes h with ⟨hw, h⟩ | h
    · exact .inl ⟨hw, .inr (.inr (.inr h))⟩
    · exact .inr h

/-- A step makes the next move, on the state in which the move has been taken. -/
theorem step_cons {s : State} {mv : Move} {rest : List Move} (h : s.moves = mv :: rest) :
    step s = makeMove exec mv { s with moves := rest } := by
  simp [step, stepWith, h]
/-- With no move left the block waits. -/
theorem step_nil {s : State} (h : s.moves = []) : step s = .next s := by
  simp [step, stepWith, h]

theorem issueMove_frozen {run : Instr → State → Result} {c : CmdWord} {s : State} (h : s.ill = true) :
    issueMove run c s = .next s := by
  simp [issueMove, h]
theorem issueMove_legal {run : Instr → State → Result} {c : CmdWord} {s : State} {i : Instr} (h : s.ill = false)
    (hd : decode c = .ok i) : issueMove run c s = run i s := by
  simp [issueMove, h, hd]
theorem issueMove_illegal {run : Instr → State → Result} {c : CmdWord} {s : State} {e : DecodeError} (h : s.ill = false)
    (hd : decode c = .error e) : issueMove run c s = .next { s with ill := true } := by
  simp [issueMove, h, hd, raiseIllegal]

end Sys2Proof
end

