-- ==== Sys2Proof/Laws/PerInstr.lean ====
section
/-! SUPPORT. Facts of every command, one lemma a constructor: its word carries its own opcode, and its reserved fields and
unused register fields are 0 (30_encoding.md R82 to R86). -/
namespace Sys2Proof.Laws.EncodedHeader

/-- The word of a command has the command's opcode in bits 31:24 and passes conditions 1 and 2 of 30_encoding.md R86. -/
def Statement (i : Instr) : Prop := field (encode i) 31 24 = i.opcode.code ∧ i.opcode.zerosOk (encode i) = true

section
variable (r a b m x : Fin 16) (off : Off) (len : Len)

theorem ofM (op : Opcode) (h : ∀ f ∈ op.zeroFields, f = (3, 0) ∨ (f = (15, 12) ∧ b = 0) ∨ (f = (7, 4) ∧ x = 0)) :
    field (wordM op r a b m x) 31 24 = op.code ∧ op.zerosOk (wordM op r a b m x) = true := by
  obtain ⟨h1, -, -, h4, -, h6, h7⟩ := field_wordM op r.isLt a.isLt b.isLt m.isLt x.isLt
  refine ⟨h1, List.all_eq_true.2 fun f hf => ?_⟩
  rcases h f hf with rfl | ⟨rfl, rfl⟩ | ⟨rfl, rfl⟩ <;> simp_all
theorem ofP (op : Opcode) (h : ∀ f ∈ op.zeroFields, f = (11, 0) ∨ (f = (15, 12) ∧ b = 0) ∨ (f = (19, 16) ∧ a = 0)) :
    field (wordP op r a b) 31 24 = op.code ∧ op.zerosOk (wordP op r a b) = true := by
  obtain ⟨h1, -, h3, h4, h5⟩ := field_wordP op r.isLt a.isLt b.isLt
  refine ⟨h1, List.all_eq_true.2 fun f hf => ?_⟩
  rcases h f hf with rfl | ⟨rfl, rfl⟩ | ⟨rfl, rfl⟩ <;> simp_all
theorem ofC (op : Opcode) (h : op.zeroFields = [(4, 0)]) :
    field (wordC op r off len) 31 24 = op.code ∧ op.zerosOk (wordC op r off len) = true := by
  obtain ⟨h1, -, -, -, h5⟩ := field_wordC op r.isLt off.isLt len.isLt
  exact ⟨h1, by simp [Opcode.zerosOk, h, h5]⟩

theorem mmul : Statement (.mmul r a b m x) := ofM r a b m x .mmul (by simp [Opcode.zeroFields])
theorem msqr : Statement (.msqr r a m x) := ofM r a 0 m x .msqr (by simp [Opcode.zeroFields])
theorem mred : Statement (.mred r a m x) := ofM r a 0 m x .mred (by simp [Opcode.zeroFields])
theorem mfrom : Statement (.mfrom r a m x) := ofM r a 0 m x .mfrom (by simp [Opcode.zeroFields])
theorem madd : Statement (.madd r a b m) := ofM r a b m 0 .madd (by simp [Opcode.zeroFields])
theorem msub : Statement (.msub r a b m) := ofM r a b m 0 .msub (by simp [Opcode.zeroFields])
theorem isz : Statement (.isz r a) := ofP r a 0 .isz (by simp [Opcode.zeroFields])
theorem visz : Statement (.visz r a) := ofP r a 0 .visz (by simp [Opcode.zeroFields])
theorem wisz : Statement (.wisz r a) := ofP r a 0 .wisz (by simp [Opcode.zeroFields])
theorem veq : Statement (.veq r a b) := ofP r a b .veq (by simp [Opcode.zeroFields])
theorem weq : Statement (.weq r a b) := ofP r a b .weq (by simp [Opcode.zeroFields])
theorem vcpy : Statement (.vcpy r a) := ofP r a 0 .vcpy (by simp [Opcode.zeroFields])
theorem wcpy : Statement (.wcpy r a) := ofP r a 0 .wcpy (by simp [Opcode.zeroFields])
theorem vzero : Statement (.vzero r) := ofP r 0 0 .vzero (by simp [Opcode.zeroFields])
theorem wzero : Statement (.wzero r) := ofP r 0 0 .wzero (by simp [Opcode.zeroFields])
theorem vldbe : Statement (.vldbe r off len) := ofC r off len .vldbe rfl
theorem vstbe : Statement (.vstbe r off len) := ofC r off len .vstbe rfl
theorem vldle : Statement (.vldle r off len) := ofC r off len .vldle rfl
theorem vstle : Statement (.vstle r off len) := ofC r off len .vstle rfl
theorem wldbe : Statement (.wldbe r off len) := ofC r off len .wldbe rfl
theorem wstbe : Statement (.wstbe r off len) := ofC r off len .wstbe rfl
theorem wldle : Statement (.wldle r off len) := ofC r off len .wldle rfl
theorem wstle : Statement (.wstle r off len) := ofC r off len .wstle rfl

end

end Sys2Proof.Laws.EncodedHeader
end

