-- ==== Sys2Proof/Tests/Slice0.lean ====
section
/-! SUPPORT. Tests. Every expected result is the spec's: 95_test_vectors.md (T1 to T98, source S8, programs P1 and P5), the
tables of 30_encoding.md and the encodings of R82 to R85 written out bit by bit. After them, one witness for the hypotheses
of every statement that has any. -/
namespace Sys2Proof.Tests

open Sys2Proof Sys2Proof.Machine

set_option Elab.async false

/- A small state, and what a step leaves in one place. -/

/-- Every register and byte zero, not frozen, no move to make. -/
def blank : State where
  v := Vector.replicate 16 0
  w := Vector.replicate 16 0
  x := Vector.replicate 16 0
  b := (List.range 256).map (fun a => (a, 0))
  ill := false
  moves := []
  answers := []
  draws := 0

/-- The state with the bytes `bs` from `off` on. -/
def withBytes (off : Nat) (bs : List Byte) (s : State) : State := { s with b := (s.b.writeBytes off bs).getD [] }
/-- `n` bytes counting up from `from`. -/
def counting (first n : Nat) : List Byte := (List.range n).map (fun j => BitVec.ofNat 8 (first + j))
/-- V[0] = m, X[0] = n0, V[1] = a, V[2] = b, W[0] = T, as 95_test_vectors.md section 5 sets the engine up. -/
def engine (m n0 a b T : Nat) : State :=
  ((((blank.writeV 0 (BitVec.ofNat 256 m)).writeX 0 (BitVec.ofNat 64 n0)).writeV 1 (BitVec.ofNat 256 a)).writeV 2
    (BitVec.ofNat 256 b)).writeW 0 (BitVec.ofNat 512 T)

/-- The step that issues the word. -/
def issued (w : Nat) (s : State) : Result := step (s.withFetchWord 32 w)
def outV (i : VReg) : Result → Option Nat
  | .next t => some (t.readV i).toNat
  | .fault _ => none
  | .refused _ => none
def outW (i : WReg) : Result → Option Nat
  | .next t => some (t.readW i).toNat
  | .fault _ => none
  | .refused _ => none
def outX (i : XReg) : Result → Option Nat
  | .next t => some (t.readX i).toNat
  | .fault _ => none
  | .refused _ => none
def outB (off n : Nat) : Result → Option (List Byte)
  | .next t => t.b.readBytes off n
  | .fault _ => none
  | .refused _ => none
def outIll : Result → Option Bool
  | .next t => some t.ill
  | .fault _ => none
  | .refused _ => none

/-- 97, the source's modulus, and its n0 (95_test_vectors.md section 2). -/
def n97 : Nat := 0x5C5F02A3A0FD5C5F
def mBig : Nat := 0xFFFFFFFFFFFFFFFFFFFFFFFFFFFFFFFFFFFFFFFFFFFFFFFFFFFFFFFFFFFFFF43
def nBig : Nat := 0xA53FA94FEA53FA95
def m25519 : Nat := 0x7FFFFFFFFFFFFFFFFFFFFFFFFFFFFFFFFFFFFFFFFFFFFFFFFFFFFFFFFFFFFFED
def n25519 : Nat := 0x86BCA1AF286BCA1B

/- WELLFORMED: each check has an ill-formed term that it refuses (41_byte_conversions.md R131). -/

theorem test_wellFormed_refuses_length_zero :
    (Instr.vldbe 1 0 0).wellFormed = false ∧ (Instr.wstle 1 0 0).wellFormed = false := by decide
theorem test_wellFormed_refuses_long_v : (Instr.vldbe 1 0 33).wellFormed = false ∧ (Instr.vldbe 1 0 32).wellFormed = true := by decide
theorem test_wellFormed_refuses_long_w : (Instr.wldbe 1 0 65).wellFormed = false ∧ (Instr.wldbe 1 0 64).wellFormed = true := by decide
theorem test_wellFormed_refuses_past_the_end :
    (Instr.vstbe 1 225 32).wellFormed = false ∧ (Instr.vstbe 1 224 32).wellFormed = true ∧
      (Instr.wstle 3 193 64).wellFormed = false ∧ (Instr.wstle 3 192 64).wellFormed = true := by decide

/- DECODE: words written from the formats. -/

/-- Format M (R82): op 0x10, rd 4, ra 2, rb 3, rm 0, xn 0, zero. -/
theorem test_decode_format_m : decode 0b00010000_0100_0010_0011_0000_0000_0000#32 = .ok (.mmul 4 2 3 0 0) := by decide
/-- Format M with every register field different: op 0x10, rd 1, ra 2, rb 3, rm 4, xn 5. -/
theorem test_decode_mmul_fields : decode 0b00010000_0001_0010_0011_0100_0101_0000#32 = .ok (.mmul 1 2 3 4 5) := by decide
theorem test_decode_msqr : decode 0b00010001_0001_0010_0000_0100_0101_0000#32 = .ok (.msqr 1 2 4 5) := by decide
theorem test_decode_mred : decode 0b00010010_0001_0010_0000_0100_0101_0000#32 = .ok (.mred 1 2 4 5) := by decide
theorem test_decode_mfrom : decode 0b00010011_0001_0010_0000_0100_0101_0000#32 = .ok (.mfrom 1 2 4 5) := by decide
theorem test_decode_madd : decode 0b00010100_0001_0010_0011_0100_0000_0000#32 = .ok (.madd 1 2 3 4) := by decide
theorem test_decode_msub : decode 0b00010101_0001_0010_0011_0100_0000_0000#32 = .ok (.msub 1 2 3 4) := by decide
/-- Format P (R83): op, rd, ra, rb, zero. -/
theorem test_decode_isz : decode 0b00100000_0010_0001_0000_000000000000#32 = .ok (.isz 2 1) := by decide
theorem test_decode_visz : decode 0b00100001_0010_0001_0000_000000000000#32 = .ok (.visz 2 1) := by decide
theorem test_decode_wisz : decode 0b00100010_0010_0001_0000_000000000000#32 = .ok (.wisz 2 1) := by decide
theorem test_decode_veq : decode 0b00100011_0010_0001_0011_000000000000#32 = .ok (.veq 2 1 3) := by decide
theorem test_decode_weq : decode 0b00100100_0010_0001_0011_000000000000#32 = .ok (.weq 2 1 3) := by decide
theorem test_decode_vcpy : decode 0b00100101_0010_0001_0000_000000000000#32 = .ok (.vcpy 2 1) := by decide
theorem test_decode_wcpy : decode 0b00100110_0010_0001_0000_000000000000#32 = .ok (.wcpy 2 1) := by decide
theorem test_decode_vzero : decode 0b00100111_0010_0000_0000_000000000000#32 = .ok (.vzero 2) := by decide
theorem test_decode_wzero : decode 0b00101000_0010_0000_0000_000000000000#32 = .ok (.wzero 2) := by decide
/-- Format C (R84): op, r, off 0x81, len 5, zero. -/
theorem test_decode_vldbe : decode 0b00110000_0010_10000001_0000101_00000#32 = .ok (.vldbe 2 0x81 5) := by decide
theorem test_decode_vstbe : decode 0b00110001_0010_10000001_0000101_00000#32 = .ok (.vstbe 2 0x81 5) := by decide
theorem test_decode_vldle : decode 0b00110010_0010_10000001_0000101_00000#32 = .ok (.vldle 2 0x81 5) := by decide
theorem test_decode_vstle : decode 0b00110011_0010_10000001_0000101_00000#32 = .ok (.vstle 2 0x81 5) := by decide
theorem test_decode_wldbe : decode 0b00110100_0010_10000001_0000101_00000#32 = .ok (.wldbe 2 0x81 5) := by decide
theorem test_decode_wstbe : decode 0b00110101_0010_10000001_0000101_00000#32 = .ok (.wstbe 2 0x81 5) := by decide
theorem test_decode_wldle : decode 0b00110110_0010_10000001_0000101_00000#32 = .ok (.wldle 2 0x81 5) := by decide
theorem test_decode_wstle : decode 0b00110111_0010_10000001_0000101_00000#32 = .ok (.wstle 2 0x81 5) := by decide

/-- T81 to T85. -/
theorem test_decode_unassigned :
    decode 0x00000000 = .error .unassignedOpcode ∧ decode 0xFFFFFFFF = .error .unassignedOpcode ∧
      decode 0x16000000 = .error .unassignedOpcode ∧ decode 0x29000000 = .error .unassignedOpcode ∧
      decode 0x38000020 = .error .unassignedOpcode := by decide
/-- T86 to T90, T96. -/
theorem test_decode_reserved :
    decode 0x10312001 = .error .reservedNotZero ∧ decode 0x11312000 = .error .reservedNotZero ∧
      decode 0x14512010 = .error .reservedNotZero ∧ decode 0x27710000 = .error .reservedNotZero ∧
      decode 0x23012800 = .error .reservedNotZero ∧ decode 0x322400A1 = .error .reservedNotZero := by decide
/-- T91 to T95, T97. -/
theorem test_decode_range :
    decode 0x30100000 = .error .badRange ∧ decode 0x30100420 = .error .badRange ∧
      decode 0x34100820 = .error .badRange ∧ decode 0x311E1400 = .error .badRange ∧
      decode 0x373C1800 = .error .badRange ∧ decode 0x301FF040 = .error .badRange := by decide
/-- T98. -/
theorem test_decode_all_fifteens : decode 0x10FFFFF0 = .ok (.mmul 15 15 15 15 15) := by decide
theorem test_decodeTableWord : decodeTableWord 32 0x25940000 = some (.vcpy 9 4) ∧ decodeTableWord 32 0x16000000 = none := by decide

/- ASSEMBLER: lines and words of programs P1 and P5 to P7, and the full-width default (R91). -/

theorem test_assemble_command : Asm.assembleLine "VLDBE v0, 0" = some [.issue 0x30000400] := by decide +kernel
theorem test_assemble_comment :
    Asm.assembleLine "MMUL v2, v2, v1, v0, x0   ; MTO" = some [.issue 0x10221000] ∧
      Asm.assembleLine "MTO v3, v3, v1, v0, x0" = some [.issue 0x10331000] := by decide +kernel
theorem test_assemble_wide_default : Asm.assembleLine "WLDBE w0, 64" = some [.issue 0x34040800] := by decide +kernel
theorem test_assemble_host_moves :
    Asm.assembleLine "HWRX x1, 0x0000000000000007" = some [.writeX 1 7] ∧ Asm.assembleLine "HRDS" = some [.readStatus] ∧
      Asm.assembleLine "HWRB 31, BE" = some [.writeB 31 0xBE] ∧
      Asm.assembleLine "HRDB 32, 2" = some [.readB 32, .readB 33] := by decide +kernel
theorem test_assemble_rejects_wrong_file : Asm.assembleLine "WISZ x5, v1" = none := by decide +kernel
theorem test_assemble_rejects_range : Asm.assembleLine "VLDBE v1, 255, 2" = none := by decide +kernel

/- THE STEP -/

/-- P5 step 4: an illegal word sets ILL and leaves V[7]. -/
theorem test_illegal_word :
    outIll (issued 0x27710000 (blank.writeV 7 5)) = some true ∧ outV 7 (issued 0x27710000 (blank.writeV 7 5)) = some 5 := by
  decide +kernel
/-- P5 step 5: a frozen block does not perform ISZ. -/
theorem test_frozen_issue : outX 2 (issued 0x20210000 { blank with ill := true }) = some 0 := by decide +kernel
/-- P5 step 9: Reset clears ILL. -/
theorem test_reset_move : outIll (step { blank with ill := true, moves := [.reset] }) = some false := by decide +kernel
/-- P5 step 8: the host still writes X. -/
theorem test_frozen_host_write : outX 1 (step { blank with ill := true, moves := [.writeX 1 7] }) = some 7 := by decide +kernel
/-- The word placed by withFetchWord is what the first step after reset runs. -/
theorem test_withFetchWord : step (State.reset.withFetchWord 32 0x27700000) = exec (.vzero 7) State.reset := by rfl

/-- R25 and R192: every word reads STATUS; a legal one writes its row's destination, an illegal one STATUS. -/
theorem test_traceOf :
    ((traceOf 0x25940000).reads = [.status, .v 4] ∧ (traceOf 0x25940000).writes = [.v 9]) ∧
      ((traceOf 0x30364040).reads = [.status, .b 100, .b 101] ∧ (traceOf 0x30364040).writes = [.v 3]) ∧
      ((traceOf 0x27710000).reads = [.status] ∧ (traceOf 0x27710000).writes = [.status]) := by decide +kernel

/- THE CONSTANT-TIME PRIMITIVES: T1 to T20. -/

theorem test_isz_T1 : outX 0 (issued 0x20010000 blank) = some 1 := by decide +kernel
theorem test_isz_T4 : outX 1 (issued 0x20110000 (blank.writeX 1 0xFFFFFFFFFFFFFFFF)) = some 0 := by decide +kernel
theorem test_visz_T5 : outX 0 (issued 0x21020000 blank) = some 1 := by decide +kernel
theorem test_visz_T6 : outX 0 (issued 0x21020000 (blank.writeV 2 (0x8000000000000000 <<< 192))) = some 0 := by decide +kernel
theorem test_wisz_T9 : outX 5 (issued 0x22510000 blank) = some 1 := by decide +kernel
theorem test_wisz_T10 : outX 5 (issued 0x22510000 (blank.writeW 1 (1 <<< 448))) = some 0 := by decide +kernel
theorem test_veq_T13 : outX 0 (issued 0x23012000 (blank.writeV 1 (1 + 1 <<< 64))) = some 0 := by decide +kernel
theorem test_veq_T14 : outX 3 (issued 0x23377000 (blank.writeV 7 0x1234)) = some 1 := by decide +kernel
theorem test_weq_T16 : outX 2 (issued 0x24203000 (blank.writeW 3 (1 <<< 448))) = some 0 := by decide +kernel
theorem test_weq_equal : outX 2 (issued 0x24203000 ((blank.writeW 3 9).writeW 0 9)) = some 1 := by decide +kernel
theorem test_vcpy_T17 :
    outV 9 (issued 0x25940000 (blank.writeV 4 (1 + 2 <<< 64 + 3 <<< 128 + 4 <<< 192))) =
      some (1 + 2 * 2 ^ 64 + 3 * 2 ^ 128 + 4 * 2 ^ 192) := by decide +kernel
theorem test_wcpy_T18 : outW 1 (issued 0x26100000 (blank.writeW 0 (1 + 8 <<< 448))) = some (1 + 8 * 2 ^ 448) := by decide +kernel
theorem test_vzero_T19 : outV 7 (issued 0x27700000 (blank.writeV 7 0x1234)) = some 0 := by decide +kernel
theorem test_wzero_T20 : outW 2 (issued 0x28200000 (blank.writeW 2 (1 <<< 511))) = some 0 := by decide +kernel

/- THE BYTE CONVERSIONS: T30 to T46. -/

theorem test_vldbe_T30 : outV 1 (issued 0x30100400 (withBytes 0 (counting 0 32) blank)) =
    some 0x000102030405060708090A0B0C0D0E0F101112131415161718191A1B1C1D1E1F := by decide +kernel
theorem test_vldbe_T35 : outV 3 (issued 0x30364120 (withBytes 100 (counting 1 9) (blank.writeV 3 (1 <<< 255)))) =
    some (0x0203040506070809 + 2 ^ 64) := by decide +kernel
theorem test_vldle_T31 : outV 2 (issued 0x32200400 (withBytes 0 (counting 0 32) blank)) =
    some 0x1F1E1D1C1B1A191817161514131211100F0E0D0C0B0A09080706050403020100 := by decide +kernel
theorem test_vldle_T37 : outV 2 (issued 0x322400A0 (withBytes 64 (counting 1 5) blank)) = some 0x504030201 := by decide +kernel
theorem test_vstbe_T39 :
    outB 200 8 (issued 0x311C9060 (withBytes 200 (List.replicate 8 0xEE) (blank.writeV 1 0xFFFF1B1C1D1E1F))) =
      some [0xEE, 0x1D, 0x1E, 0x1F, 0xEE, 0xEE, 0xEE, 0xEE] := by decide +kernel
theorem test_vstle_T38 :
    outB 0 9 (issued 0x33200100 (withBytes 0 (List.replicate 16 0xEE) (blank.writeV 2 0x0504030201))) =
      some [1, 2, 3, 4, 5, 0, 0, 0, 0xEE] := by decide +kernel
theorem test_vstle_T40 : outB 201 3 (issued 0x331C9060 (blank.writeV 1 0x1D1E1F)) = some [0x1F, 0x1E, 0x1D] := by decide +kernel
theorem test_wldbe_T44 : outW 2 (issued 0x34200400 (withBytes 0 (counting 0x40 32) (blank.writeW 2 (1 <<< 511)))) =
    some 0x404142434445464748494A4B4C4D4E4F505152535455565758595A5B5C5D5E5F := by decide +kernel
/-- T43, by its highest and lowest limbs. -/
theorem test_wldle_T43 : (outW 1 (issued 0x36100800 (withBytes 0 (counting 0x40 64) blank))).map
    (fun n => (n / 2 ^ 448, n % 2 ^ 64)) = some (0x7F7E7D7C7B7A7978, 0x4746454443424140) := by decide +kernel
theorem test_wstle_T45 : outB 192 64 (issued 0x370C0800 (blank.writeW 0 (BitVec.ofNat 512 (beVal (counting 0x40 64))))) =
    some (counting 0x40 64).reverse := by decide +kernel
theorem test_wstbe_T46 : outB 128 64 (issued 0x35180800 (blank.writeW 1 (BitVec.ofNat 512 (leVal (counting 0x40 64))))) =
    some (counting 0x40 64).reverse := by decide +kernel

/- THE MONTGOMERY ENGINE: T50 to T80. -/

theorem test_mmul_T51 : outV 3 (issued 0x10312000 (engine 97 n97 14 39 0)) = some 1 := by decide +kernel
theorem test_mmul_T79 : outV 3 (issued 0x10312000 (engine mBig nBig (mBig - 1) (mBig - 2) 0)) =
    some 0x9FD4A7F529FD4A7F529FD4A7F529FD4A7F529FD4A7F529FD4A7F529FD4A7F4B4 := by decide +kernel
theorem test_msqr_T53 : outV 3 (issued 0x11310000 (engine 97 n97 14 0 0)) = some 70 := by decide +kernel
theorem test_msqr_T62 : outV 3 (issued 0x11310000 (engine m25519 n25519
    0x0123456789ABCDEF0123456789ABCDEF0123456789ABCDEF0123456789ABCDEF 0 0)) =
    some 0x215639FD5B292FBDFB8D37124570769AA33D7785808F51AD2FFB313C19FF044F := by decide +kernel
theorem test_mred_T54 : outV 3 (issued 0x12300000 (engine 97 n97 0 0 546)) = some 1 := by decide +kernel
theorem test_mred_T80 : outV 3 (issued 0x12300000 (engine mBig nBig 0 0 (mBig * 2 ^ 256 - 1))) =
    some 0xB015AC056B015AC056B015AC056B015AC056B015AC056B015AC056B015AC04E9 := by decide +kernel
theorem test_mfrom_T52 : outV 3 (issued 0x13310000 (engine 97 n97 1 0 0)) = some 35 := by decide +kernel
theorem test_mfrom_T63 : outV 3 (issued 0x13310000 (engine m25519 n25519
    0x0123456789ABCDEF0123456789ABCDEF0123456789ABCDEF0123456789ABCDEF 0 0)) =
    some 0x328E66E10A5C19A13CA95967C6FDC8C9A873745A4DBA6A78D0DF3E7540412713 := by decide +kernel
theorem test_madd_T56 : outV 3 (issued 0x14312000 (engine 97 0 58 39 0)) = some 0 := by decide +kernel
theorem test_madd_T75 : outV 3 (issued 0x14312000 (engine mBig 0 (mBig - 1) (mBig - 2) 0)) = some (mBig - 3) := by decide +kernel
theorem test_msub_T58 : outV 3 (issued 0x15312000 (engine 97 0 14 39 0)) = some 72 := by decide +kernel
theorem test_msub_T69 : outV 3 (issued 0x15312000 (engine m25519 0 0 1 0)) = some (m25519 - 1) := by decide +kernel

/-- R79's examples, by the iteration of R152. -/
theorem test_newtonN0 :
    (newtonN0 97).toNat = n97 ∧ (newtonN0 (BitVec.ofNat 256 m25519)).toNat = n25519 ∧
      (newtonN0 (BitVec.ofNat 256 mBig)).toNat = nBig := by decide +kernel
/-- Source S8: the trace of the word-serial reduction of 546 modulo 97. -/
theorem test_redc_trace_S8 :
    redcQ n97 546 0 = 0x02A3A0FD5C5F029E ∧ redcStep 97 n97 546 0 = 2 ^ 64 ∧ redcQ n97 (2 ^ 64) 1 = 0x5C5F02A3A0FD5C5F ∧
      redcStep 97 n97 (2 ^ 64) 1 = 0x23 * 2 ^ 128 ∧ redcStep 97 n97 (0x23 * 2 ^ 128) 2 = 0x3D * 2 ^ 192 ∧
      redcStep 97 n97 (0x3D * 2 ^ 192) 3 = 2 ^ 256 := by decide +kernel
/-- T79, T80: the reduction whose value needs 257 bits before the final subtraction. -/
theorem test_redc_T80 : (redc (mBig * 2 ^ 256 - 1) (BitVec.ofNat 256 mBig) (BitVec.ofNat 64 nBig)).toNat =
    0xB015AC056B015AC056B015AC056B015AC056B015AC056B015AC056B015AC04E9 := by decide +kernel
/-- T77: the addition of m carries out of 256 bits and the carry is dropped. -/
theorem test_subDatapath_T77 : subDatapath (1 <<< 255 + 1) (0xFFFFFFFF <<< 224 + 0xFFFFFFFFFFFFFFFFFFFFFFFFFFFFFFFFFFFFFFFFFFFFFFFF <<< 32)
    (BitVec.ofNat 256 mBig) = 0x80000000000000000000000000000000000000000000000000000000FFFFFF44 := by decide +kernel

/- WITNESSES: a state and operands that meet all the hypotheses of a statement together. -/

/-- 97, its n0, R² mod 97 = 35, and the Montgomery forms 14 and 39 of 5 and 7 (95_test_vectors.md S8). -/
def s97 : State := (engine 97 n97 14 39 546).writeV 3 35
def frozen (mv : Move) : State := { blank with ill := true, moves := [mv] }
theorem formed_blank : BufferFormed blank := by simp [BufferFormed, Memory.wf, blank, Function.comp_def]
def making (mv : Move) : State := { blank with moves := [mv] }

theorem witness_DecodeOfEncodeIsTheCommand :
    (Instr.vldbe 15 255 1).wellFormed = true ∧ (Instr.wstle 0 192 64).wellFormed = true ∧ (Instr.mmul 0 1 2 3 4).wellFormed = true := by
  decide
theorem witness_DecodedWordIsTheEncoding : decode 0x301FF020 = .ok (.vldbe 1 255 1) := by decide
theorem witness_EveryOtherWordIsIllegal : ∀ o ∈ Opcode.all, ((0x29FFFFFF : CmdWord).extractLsb' 24 8).toNat ≠ o.code := by decide
theorem witness_AssembledWordsAreLegal : Asm.assembleLine "VLDBE v1, 255, 1" = some [.issue 0x301FF020] := by decide +kernel
theorem witness_StepPerformsTheDecodedCommand :
    (making (.issue 0x27700000)).moves = .issue 0x27700000 :: [] ∧ (making (.issue 0x27700000)).ill = false ∧
      decode 0x27700000 = .ok (.vzero 7) := ⟨rfl, rfl, by decide⟩
theorem witness_IllegalWordOnlySetsIll :
    (making (.issue 0x301FF040)).moves = .issue 0x301FF040 :: [] ∧ (making (.issue 0x301FF040)).ill = false ∧
      ¬ LegalByTable 0x301FF040 := ⟨rfl, rfl, by decide⟩
theorem witness_FrozenBlockServesOnlyTheHost (mv : Move) :
    BufferFormed (frozen mv) ∧ (frozen mv).moves = mv :: [] ∧ (frozen mv).ill = true := ⟨formed_blank, rfl, rfl⟩
theorem witness_HostWritesStoreInOnePlace :
    BufferFormed (making (.writeB 255 1)) ∧ (making (.writeB 255 1)).moves = .writeB 255 1 :: [] ∧
      (making (.writeX 15 7)).moves = .writeX 15 7 :: [] := ⟨formed_blank, rfl, rfl⟩
theorem witness_HostReadsGiveWhatIsThere :
    BufferFormed (making (.readB 255)) ∧ (making (.readB 255)).moves = .readB 255 :: [] ∧
      (making (.readX 15)).moves = .readX 15 :: [] ∧ (making .readStatus).moves = .readStatus :: [] := ⟨formed_blank, rfl, rfl, rfl⟩
theorem witness_ResetTakesAFreshImage : (frozen .reset).moves = .reset :: [] := rfl
theorem witness_OnlyResetLeavesTheFrozenState :
    ∃ t, step (frozen .reset) = .next t ∧ (frozen .reset).ill = true ∧ t.ill = false := ⟨_, rfl, rfl, rfl⟩
theorem witness_OnlyAnIllegalWordSetsIll :
    ∃ t, step (making (.issue 0)) = .next t ∧ (making (.issue 0)).ill = false ∧ t.ill = true := ⟨_, rfl, rfl, rfl⟩
theorem witness_StepKeepsTheBufferForm :
    BufferFormed (making (.issue 0x27700000)) ∧ ∃ t, step (making (.issue 0x27700000)) = .next t := ⟨formed_blank, _, rfl⟩
theorem witness_NoStepHangs : BufferFormed (making (.writeB 0 9)) := formed_blank
theorem witness_LegalRunsEndWell :
    BufferFormed { blank with moves := [.issue 0x27700000, .reset, .issue 0x370C0800, .readStatus] } ∧ blank.ill = false ∧
      allLegal [.issue 0x27700000, .reset, .issue 0x370C0800, .readStatus] = true := ⟨formed_blank, rfl, by decide⟩
theorem witness_CommandsTouchOnlyWhatTheTableMarks_writes :
    (Instr.mmul 3 1 2 0 0).wellFormed = true ∧ (∃ t, exec (.mmul 3 1 2 0 0) s97 = .next t) := ⟨rfl, _, rfl⟩
/-- Two states that differ where the copy does not read. -/
theorem witness_CommandsTouchOnlyWhatTheTableMarks_reads :
    (Instr.vcpy 9 4).wellFormed = true ∧ BufferFormed blank ∧ BufferFormed (blank.writeV 9 1) ∧
      (∀ p ∈ reads (.vcpy 9 4), blank.look p = (blank.writeV 9 1).look p) ∧ blank ≠ blank.writeV 9 1 := by decide +kernel
/-- A legal word before two states that differ where it does not read, and an illegal word. -/
theorem witness_IssuedWordsTouchOnlyWhatTheirTraceNames :
    BufferFormed (making (.issue 0x25940000)) ∧ (making (.issue 0x25940000)).ill = false ∧
      BufferFormed ((making (.issue 0x25940000)).writeV 9 1) ∧
      ((making (.issue 0x25940000)).writeV 9 1).moves = .issue 0x25940000 :: [] ∧
      (∀ p ∈ (traceOf 0x25940000).reads, (making (.issue 0x25940000)).look p = ((making (.issue 0x25940000)).writeV 9 1).look p) ∧
      ∀ p ∈ (traceOf 0x27710000).reads, (making (.issue 0x27710000)).look p = ((making (.issue 0x27710000)).writeV 9 1).look p :=
  ⟨formed_blank, rfl, formed_blank, rfl, by decide +kernel, by decide +kernel⟩
theorem witness_StepKeepsTheLegalRun :
    OnLegalRun (making (.issue 0x27700000)) ∧ (∃ t, step (making (.issue 0x27700000)) = .next t) ∧
      allLegal [.issue 0x27700000] = true := ⟨⟨formed_blank, rfl, by decide⟩, ⟨_, rfl⟩, by decide⟩
theorem witness_WideRegistersChangeOnlyByTheirCommands :
    ∃ t, step (making (.issue 0x28200000) |>.writeW 2 5) = .next t ∧
      ∃ r, t.readW r ≠ (making (.issue 0x28200000) |>.writeW 2 5).readW r := ⟨_, rfl, 2, by decide +kernel⟩
theorem witness_IllFormedCommandsRaiseIllegal :
    (Instr.vldbe 1 0 33).wellFormed = false ∧ (Instr.wstle 1 193 64).wellFormed = false := by decide
theorem witness_ZeroTestIsOfEveryLimb :
    (∃ t, exec (.visz 0 2) blank = .next t) ∧ ∃ t, exec (.wisz 0 2) blank = .next t := ⟨⟨_, rfl⟩, _, rfl⟩
theorem witness_ZeroTestIsEqualityWithZero : (blank.writeV 1 5).readV 2 = 0 := by decide +kernel
/-- The lengths 1 and 32 at the end of the buffer, and 64: for BigEndianLoads, LittleEndianLoads, BigEndianStores,
LittleEndianStores and StoreThenLoadRestoresSmallValues. -/
theorem witness_conversions :
    BufferFormed blank ∧ (1 ≤ (1 : Len).val ∧ (255 : Off).val + (1 : Len).val ≤ 256 ∧ (1 : Len).val ≤ 32) ∧
      (1 ≤ (32 : Len).val ∧ (224 : Off).val + (32 : Len).val ≤ 256 ∧ (32 : Len).val ≤ 32) ∧
      (1 ≤ (64 : Len).val ∧ (192 : Off).val + (64 : Len).val ≤ 256 ∧ (64 : Len).val ≤ 64) := ⟨formed_blank, by decide⟩
/-- Two offsets, overlapping or not, for the load and store back. -/
theorem witness_LoadThenStoreWritesTheBytesBack :
    BufferFormed blank ∧ 1 ≤ (32 : Len).val ∧ (0 : Off).val + (32 : Len).val ≤ 256 ∧ (224 : Off).val + (32 : Len).val ≤ 256 ∧
      1 ≤ (64 : Len).val ∧ (0 : Off).val + (64 : Len).val ≤ 256 ∧ (192 : Off).val + (64 : Len).val ≤ 256 :=
  ⟨formed_blank, by decide⟩
/-- Bytes 01 02 at 10 and 02 01 at 20. -/
theorem witness_ByteOrdersAreReversals :
    BufferFormed (withBytes 10 [1, 2] (withBytes 20 [2, 1] blank)) ∧
      ∀ j, j < (2 : Len).val → (withBytes 10 [1, 2] (withBytes 20 [2, 1] blank)).b.read ((20 : Off) + j) =
        (withBytes 10 [1, 2] (withBytes 20 [2, 1] blank)).b.read ((10 : Off) + ((2 : Len).val - 1 - j)) := by decide +kernel
theorem witness_VAndWFormsAgree :
    BufferFormed ((blank.writeV 1 255).writeW 2 255) ∧
      (((blank.writeV 1 255).writeW 2 255).readV 1).toNat = (((blank.writeV 1 255).writeW 2 255).readW 2).toNat ∧
      (((blank.writeV 1 255).writeW 2 255).readV 1).toNat < 256 ^ (1 : Len).val := by decide +kernel
/-- In domain, and out of it by an even modulus, by a = m, by a wrong n0, and by m = 1. -/
theorem witness_MmulWritesTheMontgomeryProduct :
    MulDomain (s97.readV 1) (s97.readV 2) (s97.readV 0) (s97.readX 0) ∧
      ¬ MulDomain (s97.readV 0) (s97.readV 2) (s97.readV 0) (s97.readX 0) ∧
      ¬ MulDomain (s97.readV 1) (s97.readV 2) (s97.readV 0) (s97.readX 1) ∧ ¬ MulDomain 0 0 1 0xFFFFFFFFFFFFFFFF ∧
      ¬ MulDomain 0 0 4 0 := by decide +kernel
/-- For MsqrWritesTheMontgomerySquare and MfromWritesTheStandardForm: in domain, and out of it. -/
theorem witness_MsqrAndMfrom :
    OneDomain (s97.readV 1) (s97.readV 0) (s97.readX 0) ∧ ¬ OneDomain (s97.readV 0) (s97.readV 0) (s97.readX 0) := by
  decide +kernel
/-- The largest T in domain and the smallest out of it. -/
theorem witness_MredWritesTheReduction :
    RedDomain (BitVec.ofNat 512 (97 * 2 ^ 256 - 1)) (s97.readV 0) (s97.readX 0) ∧
      ¬ RedDomain (BitVec.ofNat 512 (97 * 2 ^ 256)) (s97.readV 0) (s97.readX 0) := by decide +kernel
/-- For MaddWritesTheModularSum, MsubWritesTheModularDifference and SumAndDifferenceAreTheMaskedDatapaths. -/
theorem witness_MaddAndMsub :
    AddDomain (s97.readV 1) (s97.readV 2) (s97.readV 0) ∧ AddDomain 2 2 3 ∧ ¬ AddDomain 3 2 3 ∧ ¬ AddDomain 0 0 1 := by
  decide +kernel
/-- An even modulus is in the domain of no command. -/
theorem witness_OutOfDomainCommandsWriteTheOpenValue :
    ¬ MulDomain ((engine 4 0 1 1 1).readV 1) ((engine 4 0 1 1 1).readV 2) ((engine 4 0 1 1 1).readV 0) ((engine 4 0 1 1 1).readX 0) ∧
      ¬ OneDomain ((engine 4 0 1 1 1).readV 1) ((engine 4 0 1 1 1).readV 0) ((engine 4 0 1 1 1).readX 0) ∧
      ¬ RedDomain ((engine 4 0 1 1 1).readW 0) ((engine 4 0 1 1 1).readV 0) ((engine 4 0 1 1 1).readX 0) ∧
      ¬ AddDomain ((engine 4 0 1 1 1).readV 1) ((engine 4 0 1 1 1).readV 2) ((engine 4 0 1 1 1).readV 0) := by decide +kernel
theorem witness_MontgomeryFormsMultiply :
    ModulusOk (s97.readV 0) (s97.readX 0) ∧ 5 < (s97.readV 0).toNat ∧ 7 < (s97.readV 0).toNat ∧
      (s97.readV 1).toNat = montForm 5 (s97.readV 0).toNat ∧ (s97.readV 2).toNat = montForm 7 (s97.readV 0).toNat := by
  decide +kernel
theorem witness_MontgomeryFormRoundTrip :
    ModulusOk (s97.readV 0) (s97.readX 0) ∧ (s97.readV 1).toNat < (s97.readV 0).toNat ∧
      (s97.readV 3).toNat = 2 ^ 256 * 2 ^ 256 % (s97.readV 0).toNat ∧ (4 : VReg) ≠ 0 := by decide +kernel
theorem witness_MultiplicationIsProductThenReduction :
    MulDomain (s97.readV 1) (s97.readV 2) (s97.readV 0) (s97.readX 0) ∧
      (s97.readW 0).toNat = (s97.readV 1).toNat * (s97.readV 2).toNat := by decide +kernel
theorem witness_MfromIsMultiplicationByOne :
    OneDomain ((s97.writeV 4 1).writeW 1 14 |>.readV 1) (s97.readV 0) (s97.readX 0) ∧ (s97.writeV 4 1).readV 4 = 1 ∧
      (s97.writeW 1 14).readW 1 = (s97.readV 1).setWidth 512 := by decide +kernel
theorem witness_MontgomeryFormIsLinear :
    (s97.readV 0).toNat % 2 = 1 ∧ 3 ≤ (s97.readV 0).toNat ∧ 5 < (s97.readV 0).toNat ∧ 7 < (s97.readV 0).toNat ∧
      (s97.readV 1).toNat = montForm 5 (s97.readV 0).toNat ∧ (s97.readV 2).toNat = montForm 7 (s97.readV 0).toNat := by
  decide +kernel
/-- Program P7: 2^256 - 1 is not below the modulus, and is reduced. -/
theorem witness_AnyValueIsReducedThroughMred :
    ModulusOk (s97.readV 0) (s97.readX 0) ∧ ((s97.writeW 0 (BitVec.ofNat 512 (2 ^ 256 - 1))).readW 0).toNat < 2 ^ 256 ∧
      (s97.readV 3).toNat = 2 ^ 256 * 2 ^ 256 % (s97.readV 0).toNat ∧ (4 : VReg) ≠ 0 ∧ (4 : VReg) ≠ 3 := by decide +kernel
theorem witness_ReferenceReductionMeetsTheContract :
    ModulusOk (s97.readV 0) (s97.readX 0) ∧ 97 * 2 ^ 256 - 1 < (s97.readV 0).toNat * 2 ^ 256 ∧ 546 < (s97.readV 0).toNat * 2 ^ 256 := by
  decide +kernel
theorem witness_EngineWritesTheReferenceReduction :
    MulDomain (s97.readV 1) (s97.readV 2) (s97.readV 0) (s97.readX 0) ∧ RedDomain (s97.readW 0) (s97.readV 0) (s97.readX 0) ∧
      OneDomain (s97.readV 1) (s97.readV 0) (s97.readX 0) := by decide +kernel
theorem witness_NewtonIterationGivesTheConstant : (97 : Vec).toNat % 2 = 1 := by decide
theorem witness_MontgomeryConstantOfOddModuli :
    pN0 97 n97 = true ∧ (97 : Vec).toNat % 2 = 1 ∧ limbV 97 0 = limbV (97 + 1 <<< 64) 0 := by decide +kernel

end Sys2Proof.Tests
end

section
/-! SUPPORT. The footprint of a command (10_state.md R25): it changes only the places it writes, and what it puts there
depends only on the places it reads. -/
namespace Sys2Proof

open Sys2Proof.Machine

/- Two states look the same at a place exactly when the place holds the same in both. -/

theorem look_v_eq_iff (s t : State) (i : VReg) : s.look (.v i) = t.look (.v i) ↔ s.readV i = t.readV i := by
  simp [State.look, BitVec.toNat_inj]
theorem look_w_eq_iff (s t : State) (i : WReg) : s.look (.w i) = t.look (.w i) ↔ s.readW i = t.readW i := by
  simp [State.look, BitVec.toNat_inj]
theorem look_x_eq_iff (s t : State) (i : XReg) : s.look (.x i) = t.look (.x i) ↔ s.readX i = t.readX i := by
  simp [State.look, BitVec.toNat_inj]
theorem look_b_eq_iff (s t : State) (a : Nat) : s.look (.b a) = t.look (.b a) ↔ s.b.read a = t.b.read a :=
  (Option.map_injective fun _ _ => BitVec.eq_of_toNat_eq).eq_iff

theorem forall_mem_bufferRange {P : Place → Prop} {off len : Nat} :
    (∀ p ∈ bufferRange off len, P p) ↔ ∀ j < len, P (.b (off + j)) := by
  simp [bufferRange]

/-- Buffers that agree on a run of addresses read the same bytes from it. -/
theorem Machine.Memory.readBytes_congr {m m' : Memory} {addr n : Nat}
    (h : ∀ j < n, m.read (addr + j) = m'.read (addr + j)) : m.readBytes addr n = m'.readBytes addr n := by
  induction n generalizing addr with
  | zero => rfl
  | succ n ih =>
    have head : m.read addr = m'.read addr := h 0 n.succ_pos
    have tail : m.readBytes (addr + 1) n = m'.readBytes (addr + 1) n :=
      ih fun j hj => by simpa [Nat.add_assoc, Nat.add_comm 1 j] using h (j + 1) (Nat.succ_lt_succ hj)
    simp only [Memory.readBytes, head, tail]

/-- Both results are next states, and these look the same at every place of `ps`. -/
def SameAt (ps : List Place) (r₁ r₂ : Result) : Prop :=
  ∃ t₁ t₂, r₁ = .next t₁ ∧ r₂ = .next t₂ ∧ ∀ p ∈ ps, t₁.look p = t₂.look p

section twoStates
variable (s₁ s₂ : State)

theorem sameAt_writeV (i : VReg) {a₁ a₂ : Vec} (h : a₁ = a₂) :
    SameAt [.v i] (.next (s₁.writeV i a₁)) (.next (s₂.writeV i a₂)) :=
  ⟨_, _, rfl, rfl, by simp [look_v_eq_iff, h]⟩
theorem sameAt_writeW (i : WReg) {a₁ a₂ : Wide} (h : a₁ = a₂) :
    SameAt [.w i] (.next (s₁.writeW i a₁)) (.next (s₂.writeW i a₂)) :=
  ⟨_, _, rfl, rfl, by simp [look_w_eq_iff, h]⟩
theorem sameAt_writeX (i : XReg) {a₁ a₂ : Limb} (h : a₁ = a₂) :
    SameAt [.x i] (.next (s₁.writeX i a₁)) (.next (s₂.writeX i a₂)) :=
  ⟨_, _, rfl, rfl, by simp [look_x_eq_iff, h]⟩

end twoStates

section conversions
variable {s₁ s₂ : State} (hw₁ : BufferFormed s₁) (hw₂ : BufferFormed s₂)
include hw₁ hw₂

/-- What a legal load puts into its V register depends only on the bytes of its range. -/
theorem loadV_sameAt {val : List Byte → Nat} {vd : VReg} {off len : Nat} (hl : conversionWellFormed 32 off len = true)
    (h : ∀ p ∈ bufferRange off len, s₁.look p = s₂.look p) :
    SameAt [.v vd] (loadV val vd off len s₁) (loadV val vd off len s₂) := by
  rw [← lengthLegal_eq] at hl
  simp only [forall_mem_bufferRange, look_b_eq_iff] at h
  obtain ⟨bs₁, hbs₁, e₁⟩ := loadV_completes (val := val) (vd := vd) hw₁ hl
  obtain ⟨bs₂, hbs₂, e₂⟩ := loadV_completes (val := val) (vd := vd) hw₂ hl
  have hbs : bs₁ = bs₂ := Option.some.inj (hbs₁.symm.trans ((Memory.readBytes_congr h).trans hbs₂))
  rw [e₁, e₂]
  exact sameAt_writeV s₁ s₂ vd (by rw [hbs])
/-- The same for a W register. -/
theorem loadW_sameAt {val : List Byte → Nat} {wd : WReg} {off len : Nat} (hl : conversionWellFormed 64 off len = true)
    (h : ∀ p ∈ bufferRange off len, s₁.look p = s₂.look p) :
    SameAt [.w wd] (loadW val wd off len s₁) (loadW val wd off len s₂) := by
  rw [← lengthLegal_eq] at hl
  simp only [forall_mem_bufferRange, look_b_eq_iff] at h
  obtain ⟨bs₁, hbs₁, e₁⟩ := loadW_completes (val := val) (wd := wd) hw₁ hl
  obtain ⟨bs₂, hbs₂, e₂⟩ := loadW_completes (val := val) (wd := wd) hw₂ hl
  have hbs : bs₁ = bs₂ := Option.some.inj (hbs₁.symm.trans ((Memory.readBytes_congr h).trans hbs₂))
  rw [e₁, e₂]
  exact sameAt_writeW s₁ s₂ wd (by rw [hbs])

/-- What a legal store puts into the bytes of its range depends only on the value stored. -/
theorem storeBytes_sameAt {n : Nat} {bytes : Nat → Nat → List Byte} (hb : ∀ v n, (bytes v n).length = n)
    {v₁ v₂ off len : Nat} (hl : conversionWellFormed n off len = true) (hv : v₁ = v₂) :
    SameAt (bufferRange off len) (storeBytes n bytes v₁ off len s₁) (storeBytes n bytes v₂ off len s₂) := by
  subst hv
  rw [← lengthLegal_eq] at hl
  obtain ⟨m₁, hm₁, e₁⟩ := storeBytes_completes (v := v₁) hw₁ (hb _ _) hl
  obtain ⟨m₂, hm₂, e₂⟩ := storeBytes_completes (v := v₁) hw₂ (hb _ _) hl
  obtain ⟨-, written₁, -⟩ := Memory.writeBytes_spec hm₁
  obtain ⟨-, written₂, -⟩ := Memory.writeBytes_spec hm₂
  rw [hb] at written₁ written₂
  refine ⟨_, _, e₁, e₂, forall_mem_bufferRange.2 fun j hj => (look_b_eq_iff _ _ _).2 ?_⟩
  exact (written₁ j hj).trans (written₂ j hj).symm

/-- A well-formed command completes in both of two states that agree on the places it reads, and puts the same values
into the places it writes. -/
theorem exec_sameAt {i : Instr} (hi : i.wellFormed = true) (h : ∀ p ∈ reads i, s₁.look p = s₂.look p) :
    SameAt (writes i) (exec i s₁) (exec i s₂) := by
  cases i with
  | vzero vd => exact sameAt_writeV s₁ s₂ vd rfl
  | wzero wd => exact sameAt_writeW s₁ s₂ wd rfl
  | mmul vd | msqr vd | mred vd | mfrom vd | madd vd | msub vd | vcpy vd =>
    simp only [reads, List.forall_mem_cons, look_v_eq_iff, look_w_eq_iff, look_x_eq_iff] at h
    exact sameAt_writeV s₁ s₂ vd (by simp only [h])
  | wcpy wd =>
    simp only [reads, List.forall_mem_cons, look_w_eq_iff] at h
    exact sameAt_writeW s₁ s₂ wd (by simp only [h])
  | isz xd | visz xd | wisz xd | veq xd | weq xd =>
    simp only [reads, List.forall_mem_cons, look_v_eq_iff, look_w_eq_iff, look_x_eq_iff] at h
    exact sameAt_writeX s₁ s₂ xd (by simp only [h])
  | vldbe | vldle => exact loadV_sameAt hw₁ hw₂ hi h
  | wldbe | wldle => exact loadW_sameAt hw₁ hw₂ hi h
  | vstbe | wstbe =>
    simp only [reads, List.forall_mem_cons, look_v_eq_iff, look_w_eq_iff] at h
    exact storeBytes_sameAt hw₁ hw₂ length_beBytes hi (by simp only [h])
  | vstle | wstle =>
    simp only [reads, List.forall_mem_cons, look_v_eq_iff, look_w_eq_iff] at h
    exact storeBytes_sameAt hw₁ hw₂ length_leBytes hi (by simp only [h])

end conversions

/-- A well-formed command changes only the places it writes. -/
theorem exec_changesOnly_writes {i : Instr} {s t : State} (hi : i.wellFormed = true) (h : exec i s = .next t) :
    ChangesOnly (writes i) s t := by
  rcases exec_next_cases h with ⟨-, hw⟩ | ⟨hbad, -⟩
  · obtain ⟨vd, a, hp, rfl⟩ | ⟨wd, a, hp, rfl⟩ | ⟨xd, a, hp, rfl⟩ | ⟨off, bs, m, hp, hm, rfl⟩ := hw <;> rw [hp]
    · exact changesOnly_writeV s vd a
    · exact changesOnly_writeW s wd a
    · exact changesOnly_writeX s xd a
    · exact changesOnly_writeBytes hm
  · simp [hi] at hbad

/-- Settles O20: the frame by what `exec_next_cases` lets a command do, the dependence command by command. -/
theorem commandsTouchOnlyWhatTheTableMarks : Obligations.CommandsTouchOnlyWhatTheTableMarks :=
  ⟨fun _ _ _ hi h => exec_changesOnly_writes hi h, fun _ _ _ hi hw₁ hw₂ h => exec_sameAt hw₁ hw₂ hi h⟩

end Sys2Proof
end

section
/-! SUPPORT. Legality by mask and match (30_encoding.md R86): a mask made of fields keeps of a word exactly those fields, so
`c & mask = match` and the check of each field by itself say the same. -/
namespace Sys2Proof

/-- The mask of the bits `f.1 : f.2` of a word. -/
def fieldMask (f : Nat × Nat) : CmdWord := (BitVec.allOnes (f.1 + 1 - f.2)).setWidth 32 <<< f.2
/-- The mask of several fields. -/
def fieldsMask (fs : List (Nat × Nat)) : CmdWord := fs.foldr (fun f m => fieldMask f ||| m) 0

/-- What a field's mask keeps of a word is the field, at its place. -/
theorem toNat_and_fieldMask (c : CmdWord) (f : Nat × Nat) :
    (c &&& fieldMask f).toNat = field c f.1 f.2 * 2 ^ f.2 := by
  refine Nat.eq_of_testBit_eq fun i => ?_
  rw [BitVec.testBit_toNat, field, Nat.testBit_mul_two_pow, Nat.testBit_mod_two_pow, Nat.testBit_div_two_pow,
    BitVec.testBit_toNat]
  by_cases hlo : f.2 ≤ i
  · by_cases hi : i < 32
    · simp [fieldMask, hlo, hi, Nat.not_lt.2 hlo, Bool.and_comm]
    · simp [hlo, BitVec.getLsbD_of_ge c i (Nat.le_of_not_lt hi)]
  · simp [fieldMask, hlo, Nat.lt_of_not_le hlo]

/-- Two words agree under the mask of a field exactly when they agree in the field. -/
theorem and_fieldMask_eq_iff (c d : CmdWord) (f : Nat × Nat) :
    c &&& fieldMask f = d &&& fieldMask f ↔ field c f.1 f.2 = field d f.1 f.2 := by
  rw [← BitVec.toNat_inj, toNat_and_fieldMask, toNat_and_fieldMask, Nat.mul_left_inj (by positivity)]

/-- Two words agree under the union of two masks exactly when they agree under each: bit by bit. -/
theorem and_or_eq_and_or_iff {w : Nat} (c d m n : BitVec w) :
    c &&& (m ||| n) = d &&& (m ||| n) ↔ c &&& m = d &&& m ∧ c &&& n = d &&& n := by
  have bit : ∀ a b p q : Bool, (a && (p || q)) = (b && (p || q)) ↔ (a && p) = (b && p) ∧ (a && q) = (b && q) := by decide
  simp only [BitVec.eq_of_getLsbD_eq_iff, BitVec.getLsbD_and, BitVec.getLsbD_or, bit, imp_and, forall_and]

/-- Two words agree under the mask of several fields exactly when they agree in each field. -/
theorem and_fieldsMask_eq_iff (c d : CmdWord) (fs : List (Nat × Nat)) :
    c &&& fieldsMask fs = d &&& fieldsMask fs ↔ ∀ f ∈ fs, field c f.1 f.2 = field d f.1 f.2 := by
  induction fs with
  | nil => simp [fieldsMask]
  | cons f fs ih =>
    rw [List.forall_mem_cons, ← ih, ← and_fieldMask_eq_iff]
    exact and_or_eq_and_or_iff c d (fieldMask f) (fieldsMask fs)

/-- The mask column of the table: the opcode and the fields that must be 0. -/
theorem Opcode.row_mask (o : Opcode) : o.row.2 = fieldsMask ((31, 24) :: o.zeroFields) := by cases o <;> decide
/-- The match column of the table: its own opcode, and 0 in the fields that must be 0. -/
theorem Opcode.row_match (o : Opcode) :
    o.row.1 &&& o.row.2 = o.row.1 ∧ field o.row.1 31 24 = o.code ∧ o.zerosOk o.row.1 = true := by cases o <;> decide

theorem Opcode.zerosOk_iff (o : Opcode) (c : CmdWord) : o.zerosOk c = true ↔ ∀ f ∈ o.zeroFields, field c f.1 f.2 = 0 := by
  simp [Opcode.zerosOk]

/-- Conditions 1 and 2 of 30_encoding.md R86 by fields and by mask and match. -/
theorem Opcode.matches_iff (o : Opcode) (c : CmdWord) :
    c &&& o.row.2 = o.row.1 ↔ field c 31 24 = o.code ∧ o.zerosOk c = true := by
  obtain ⟨hself, hcode, hzeros⟩ := o.row_match
  rw [o.zerosOk_iff] at hzeros ⊢
  conv_lhs => rw [← hself, o.row_mask, and_fieldsMask_eq_iff, List.forall_mem_cons, hcode]
  exact and_congr_right' (forall₂_congr fun f hf => by rw [hzeros f hf])

/-- A field is the same bits of the word. -/
theorem field_eq_toNat_extractLsb' (c : CmdWord) (hi lo : Nat) : field c hi lo = (c.extractLsb' lo (hi + 1 - lo)).toNat := by
  rw [field, BitVec.extractLsb'_toNat, Nat.shiftRight_eq_div_pow]

/-- Condition 3 of 30_encoding.md R86, on the bits of the word. -/
theorem Opcode.rangeOk_iff (o : Opcode) (c : CmdWord) :
    o.rangeOk c = true ↔ ∀ n ∈ o.maxLen, 1 ≤ (c.extractLsb' 5 7).toNat ∧ (c.extractLsb' 5 7).toNat ≤ n ∧
      (c.extractLsb' 12 8).toNat + (c.extractLsb' 5 7).toNat ≤ 256 := by
  have hoff : field c 19 12 = (c.extractLsb' 12 8).toNat := field_eq_toNat_extractLsb' c 19 12
  have hlen : field c 11 5 = (c.extractLsb' 5 7).toNat := field_eq_toNat_extractLsb' c 11 5
  unfold Opcode.rangeOk
  cases o.maxLen with
  | none => simp
  | some n => simp [lengthLegal, hoff, hlen, and_assoc]

theorem Opcode.ofCode_eq_some_iff (n : Nat) (o : Opcode) : Opcode.ofCode n = some o ↔ n = o.code :=
  ⟨fun h => (Opcode.code_of_ofCode h).symm, fun h => h ▸ o.ofCode_code⟩
theorem Opcode.mem_all (o : Opcode) : o ∈ Opcode.all := by cases o <;> decide

/-- A word decodes exactly when it is legal by the table of 30_encoding.md R86. -/
theorem decodes_iff_legalByTable (c : CmdWord) : (∃ i, decode c = .ok i) ↔ LegalByTable c := by
  calc (∃ i, decode c = .ok i)
    _ ↔ ∃ o : Opcode, field c 31 24 = o.code ∧ o.zerosOk c = true ∧ o.rangeOk c = true := by
        simp only [decode_ok_iff, Opcode.ofCode_eq_some_iff]
        exact ⟨fun ⟨_, o, ho, hz, hr, _⟩ => ⟨o, ho, hz, hr⟩, fun ⟨o, ho, hz, hr⟩ => ⟨_, o, ho, hz, hr, rfl⟩⟩
    _ ↔ LegalByTable c := by
        simp only [LegalByTable, Opcode.mem_all, true_and, Opcode.matches_iff, Opcode.rangeOk_iff, and_assoc]

/-- Settles O4: mask and match say of a word what the decoder checks field by field. -/
theorem decoderAcceptsExactlyTheTable : Obligations.DecoderAcceptsExactlyTheTable := decodes_iff_legalByTable

end Sys2Proof
end

section
/-! SUPPORT. The Montgomery constant (30_encoding.md R79): the n0 with `m · n0 ≡ -1` modulo 2^64. -/
namespace Sys2Proof

open Sys2Proof.Machine

theorem pN0_iff (m n : Nat) : pN0 m n = true ↔ m * n % 2 ^ 64 = 2 ^ 64 - 1 := beq_iff_eq

/-- Only limb 0 of the modulus counts. -/
theorem pN0_limbV_zero (m : Vec) (n : Nat) : pN0 (limbV m 0).toNat n = pN0 m.toNat n := by
  simp [pN0, limbV_toNat]

/-- A modulus that has a Montgomery constant is odd: the product 2^64 - 1 is. -/
theorem odd_of_pN0 {m n : Nat} (h : pN0 m n = true) : m % 2 = 1 := by
  rw [pN0_iff] at h
  have hprod : m * n % 2 = 1 := by omega
  exact Nat.odd_iff.1 (Nat.odd_mul.1 (Nat.odd_iff.2 hprod)).1

/-- An odd modulus is invertible modulo 2^64, so it has a Montgomery constant. -/
theorem exists_pN0_of_odd {m : Nat} (h : m % 2 = 1) : ∃ n0 : Limb, pN0 m n0.toNat = true := by
  obtain ⟨n, hlt, hn⟩ := Nat.exists_mul_mod_eq_of_coprime (2 ^ 64 - 1) (coprime_two_pow h 64) (by decide)
  exact ⟨BitVec.ofNat 64 n, by rw [pN0_iff, BitVec.toNat_ofNat, Nat.mul_mod_mod]; exact hn⟩

theorem pN0_unique {m : Nat} {n n' : Limb} (h : pN0 m n.toNat = true) (h' : pN0 m n'.toNat = true) : n = n' := by
  have hm := coprime_two_pow (odd_of_pN0 h) 64
  rw [pN0_iff] at h h'
  have hmod : n.toNat ≡ n'.toNat [MOD 2 ^ 64] := Nat.ModEq.cancel_left_of_coprime hm.symm (h.trans h'.symm)
  exact BitVec.eq_of_toNat_eq (hmod.eq_of_lt_of_lt n.isLt n'.isLt)

/-- Settles O57: invertibility modulo 2^64 gives existence and uniqueness, and only the modulus modulo 2^64 counts. -/
theorem montgomeryConstantOfOddModuli : Obligations.MontgomeryConstantOfOddModuli := by
  refine ⟨fun m => ⟨fun ⟨_, h⟩ => odd_of_pN0 h, exists_pN0_of_odd⟩, fun _ _ _ => pN0_unique, fun m m' n h => ?_,
    fun m n => ?_, by decide, by decide⟩
  · rw [← pN0_limbV_zero m, h, pN0_limbV_zero]
  · rw [← pN0_limbV_zero, pN0_iff]

end Sys2Proof
end

section
/-! SUPPORT. The constant-time primitives (40_ct_primitives.md R104 to R116): one equation per command, with the flag by the
value of the operands, and what a command that writes one register does to the block. -/
namespace Sys2Proof

open Sys2Proof.Machine

section commands
variable (s : State)

theorem exec_isz (xd xa : XReg) : exec (.isz xd xa) s = .next (s.writeX xd (if s.readX xa = 0 then 1 else 0)) := by
  rw [← isZero_eq]; rfl
theorem exec_visz (xd : XReg) (va : VReg) : exec (.visz xd va) s = .next (s.writeX xd (if s.readV va = 0 then 1 else 0)) := by
  rw [← vecIsZero_eq]; rfl
theorem exec_wisz (xd : XReg) (wa : WReg) : exec (.wisz xd wa) s = .next (s.writeX xd (if s.readW wa = 0 then 1 else 0)) := by
  rw [← wideIsZero_eq]; rfl
theorem exec_veq (xd : XReg) (va vb : VReg) :
    exec (.veq xd va vb) s = .next (s.writeX xd (if s.readV va = s.readV vb then 1 else 0)) := by
  rw [← vecIsEqual_eq]; rfl
theorem exec_weq (xd : XReg) (wa wb : WReg) :
    exec (.weq xd wa wb) s = .next (s.writeX xd (if s.readW wa = s.readW wb then 1 else 0)) := by
  rw [← wideIsEqual_eq]; rfl
theorem exec_vcpy (vd va : VReg) : exec (.vcpy vd va) s = .next (s.writeV vd (s.readV va)) := rfl
theorem exec_wcpy (wd wa : WReg) : exec (.wcpy wd wa) s = .next (s.writeW wd (s.readW wa)) := rfl
theorem exec_vzero (vd : VReg) : exec (.vzero vd) s = .next (s.writeV vd 0) := rfl
theorem exec_wzero (wd : WReg) : exec (.wzero wd) s = .next (s.writeW wd 0) := rfl

end commands

section writers
variable {r : Result} {s : State}

/-- A command that writes one register completes, changes nothing else and leaves the value there. -/
theorem completes_of_writeV {i : VReg} {a : Vec} (h : r = .next (s.writeV i a)) :
    ∃ t, r = .next t ∧ ChangesOnly [.v i] s t ∧ t.readV i = a :=
  ⟨_, h, changesOnly_writeV s i a, readV_writeV_same s i a⟩
theorem completes_of_writeW {i : WReg} {a : Wide} (h : r = .next (s.writeW i a)) :
    ∃ t, r = .next t ∧ ChangesOnly [.w i] s t ∧ t.readW i = a :=
  ⟨_, h, changesOnly_writeW s i a, readW_writeW_same s i a⟩
theorem completes_of_writeX {i : XReg} {a : Limb} (h : r = .next (s.writeX i a)) :
    ∃ t, r = .next t ∧ ChangesOnly [.x i] s t ∧ t.readX i = a :=
  ⟨_, h, changesOnly_writeX s i a, readX_writeX_same s i a⟩

end writers

/-- A register is zero exactly when each of its limbs is (40_ct_primitives.md R115). -/
theorem vec_eq_zero_iff_limbs (a : Vec) : a = 0 ↔ ∀ k, k < 4 → limbV a k = 0 := by
  have limb_zero : ∀ k, limbV 0 k = 0 := fun _ => BitVec.extractLsb'_zero
  simpa only [limb_zero] using (vec_eq_iff_limbs a 0).trans (forall_congr' fun _ => imp_congr_left (List.mem_range (n := 4)))
theorem wide_eq_zero_iff_limbs (a : Wide) : a = 0 ↔ ∀ k, k < 8 → limbW a k = 0 := by
  have limb_zero : ∀ k, limbW 0 k = 0 := fun _ => BitVec.extractLsb'_zero
  simpa only [limb_zero] using (wide_eq_iff_limbs a 0).trans (forall_congr' fun _ => imp_congr_left (List.mem_range (n := 8)))

/-- The flag that a zero tester leaves is 1 exactly when what it tested holds. -/
theorem flag_readX_eq_one_iff {s t : State} {xd : XReg} {c : Prop} [Decidable c]
    (h : Host.Outcome.next (s.writeX xd (if c then 1 else 0)) = (.next t : Result)) : t.readX xd = 1 ↔ c := by
  rw [← Host.Outcome.next.inj h, readX_writeX_same]
  exact Ne.ite_eq_left_iff (by decide)

/-- Settles O23: a pattern is zero exactly when its value is. -/
theorem zeroTestersWriteTheFlag : Obligations.ZeroTestersWriteTheFlag := by
  intro s xd
  have value_zero {n : Nat} (a : BitVec n) : a.toNat = 0 ↔ a = 0 := BitVec.toNat_inj (y := 0#n)
  simp only [value_zero]
  exact ⟨fun xa => completes_of_writeX (exec_isz s xd xa), fun va => completes_of_writeX (exec_visz s xd va),
    fun wa => completes_of_writeX (exec_wisz s xd wa)⟩

/-- Settles O24, by the equations of the two commands. -/
theorem equalityTestersWriteTheFlag : Obligations.EqualityTestersWriteTheFlag := fun s xd =>
  ⟨fun va vb => completes_of_writeX (exec_veq s xd va vb), fun wa wb => completes_of_writeX (exec_weq s xd wa wb)⟩

/-- Settles O25: the flag is 1 exactly when the operand is zero, which its limbs settle. -/
theorem zeroTestIsOfEveryLimb : Obligations.ZeroTestIsOfEveryLimb := by
  refine ⟨fun s t xd va h => ?_, fun s t xd wa h => ?_⟩
  · rw [exec_visz] at h
    exact (flag_readX_eq_one_iff h).trans (vec_eq_zero_iff_limbs _)
  · rw [exec_wisz] at h
    exact (flag_readX_eq_one_iff h).trans (wide_eq_zero_iff_limbs _)

/-- Settles O26, by the equations of the two commands. -/
theorem copiesWriteTheSource : Obligations.CopiesWriteTheSource := fun s =>
  ⟨fun vd va => completes_of_writeV (exec_vcpy s vd va), fun wd wa => completes_of_writeW (exec_wcpy s wd wa)⟩

/-- Settles O27, by the equations of the two commands. -/
theorem secureZeroClearsOneRegister : Obligations.SecureZeroClearsOneRegister := fun s =>
  ⟨fun vd => completes_of_writeV (exec_vzero s vd), fun wd => completes_of_writeW (exec_wzero s wd)⟩

/-- Settles O28: the zero test reads back the zero just written. -/
theorem zeroTestAfterSecureZero : Obligations.ZeroTestAfterSecureZero := fun s xd =>
  ⟨fun vd => ⟨_, _, exec_vzero s vd, exec_visz _ xd vd, by simp⟩,
    fun wd => ⟨_, _, exec_wzero s wd, exec_wisz _ xd wd, by simp⟩⟩

end Sys2Proof
end

section
/-! SUPPORT. The byte conversions (41_byte_conversions.md R132 to R139): what a load and a store do, said once for both byte
orders and used with each. -/
namespace Sys2Proof

open Sys2Proof.Machine

/-- A byte order: `val` is the integer of a byte sequence, `bytes` lays an integer out in n bytes, and byte j of them is the
digit of weight `256 ^ pos n j` (00_scope.md R13, 30_encoding.md R75, R76). -/
structure ByteOrder (val : List Byte → Nat) (bytes : Nat → Nat → List Byte) (pos : Nat → Nat → Nat) : Prop where
  val_lt : ∀ bs, val bs < 256 ^ bs.length
  bytes_val : ∀ bs, bytes (val bs) bs.length = bs
  length_bytes : ∀ v n, (bytes v n).length = n
  bytes_mod : ∀ v n, bytes (v % 256 ^ n) n = bytes v n
  getElem?_bytes : ∀ v n j, j < n → (bytes v n)[j]? = some (BitVec.ofNat 8 (v / 256 ^ pos n j))

theorem byteOrder_be : ByteOrder beVal beBytes (fun n j => n - 1 - j) :=
  ⟨beVal_lt, beBytes_beVal, length_beBytes, beBytes_mod, getElem?_beBytes⟩
theorem byteOrder_le : ByteOrder leVal leBytes (fun _ j => j) :=
  ⟨leVal_lt, leBytes_leVal, length_leBytes, leBytes_mod, getElem?_leBytes⟩

section conversions
variable {val : List Byte → Nat} {bytes : Nat → Nat → List Byte} {pos : Nat → Nat → Nat}

/-- The integer of the bytes read: it is within their number, and its digits are the bytes of the buffer. -/
theorem ByteOrder.val_of_readBytes (ho : ByteOrder val bytes pos) {m : Memory} {addr n : Nat} {bs : List Byte}
    (hb : m.readBytes addr n = some bs) :
    val bs < 256 ^ n ∧ ∀ j, j < n → m.read (addr + j) = some (BitVec.ofNat 8 (val bs / 256 ^ pos n j)) := by
  obtain ⟨rfl, hread⟩ := Memory.readBytes_spec hb
  refine ⟨ho.val_lt bs, fun j hj => ?_⟩
  rw [← hread j hj, ← ho.getElem?_bytes _ _ _ hj, ho.bytes_val]

variable (ho : ByteOrder val bytes pos) {s : State} {off : Off} {len : Len} (hi : BufferFormed s) (h1 : 1 ≤ len.val)
  (h3 : off.val + len.val ≤ 256)
include ho hi h1 h3

/-- A load writes the integer of the bytes to the whole V register and changes nothing else. -/
theorem ByteOrder.loadV_writes (h2 : len.val ≤ 32) (vd : VReg) :
    ∃ t, loadV val vd off len s = .next t ∧ ChangesOnly [.v vd] s t ∧ (t.readV vd).toNat < 256 ^ len.val ∧
      ∀ j, j < len.val → s.b.read (off + j) = some (BitVec.ofNat 8 ((t.readV vd).toNat / 256 ^ pos len j)) := by
  obtain ⟨bs, hb, hload, hval⟩ := loadV_spec ho.val_lt vd hi h1 h2 h3
  obtain ⟨t, ht, hframe, hreg⟩ := completes_of_writeV hload
  refine ⟨t, ht, hframe, ?_⟩
  rw [hreg, hval]
  exact ho.val_of_readBytes hb
/-- The same for a W register. -/
theorem ByteOrder.loadW_writes (h2 : len.val ≤ 64) (wd : WReg) :
    ∃ t, loadW val wd off len s = .next t ∧ ChangesOnly [.w wd] s t ∧ (t.readW wd).toNat < 256 ^ len.val ∧
      ∀ j, j < len.val → s.b.read (off + j) = some (BitVec.ofNat 8 ((t.readW wd).toNat / 256 ^ pos len j)) := by
  obtain ⟨bs, hb, hload, hval⟩ := loadW_spec ho.val_lt wd hi h1 h2 h3
  obtain ⟨t, ht, hframe, hreg⟩ := completes_of_writeW hload
  refine ⟨t, ht, hframe, ?_⟩
  rw [hreg, hval]
  exact ho.val_of_readBytes hb

/-- A store writes the low digits of the value to the bytes of its range and changes nothing else. -/
theorem ByteOrder.storeBytes_writes {n : Nat} (h2 : len.val ≤ n) (v : Nat) :
    ∃ t, storeBytes n bytes v off len s = .next t ∧ ChangesOnly (bufferRange off len) s t ∧
      ∀ j, j < len.val → t.b.read (off + j) = some (BitVec.ofNat 8 (v / 256 ^ pos len j)) := by
  obtain ⟨m, hstore, hframe, -, hread⟩ := storeBytes_spec ho.length_bytes ho.bytes_mod v hi h1 h2 h3
  exact ⟨_, hstore, hframe, fun j hj => (hread j hj).trans (ho.getElem?_bytes v len j hj)⟩

end conversions

/-- Settles O32: the loads in the order whose byte j of n has weight `256 ^ (n - 1 - j)`. -/
theorem bigEndianLoads : Obligations.BigEndianLoads := fun _ _ _ hi h1 h3 =>
  ⟨byteOrder_be.loadV_writes hi h1 h3, byteOrder_be.loadW_writes hi h1 h3⟩

/-- Settles O33: the loads in the order whose byte j has weight `256 ^ j`. -/
theorem littleEndianLoads : Obligations.LittleEndianLoads := fun _ _ _ hi h1 h3 =>
  ⟨byteOrder_le.loadV_writes hi h1 h3, byteOrder_le.loadW_writes hi h1 h3⟩

/-- Settles O34: the stores of the register's value, most significant byte first. -/
theorem bigEndianStores : Obligations.BigEndianStores := fun _ _ _ hi h1 h3 =>
  ⟨fun h2 _ => byteOrder_be.storeBytes_writes hi h1 h3 h2 _, fun h2 _ => byteOrder_be.storeBytes_writes hi h1 h3 h2 _⟩

/-- Settles O35: the stores of the register's value, least significant byte first. -/
theorem littleEndianStores : Obligations.LittleEndianStores := fun _ _ _ hi h1 h3 =>
  ⟨fun h2 _ => byteOrder_le.storeBytes_writes hi h1 h3 h2 _, fun h2 _ => byteOrder_le.storeBytes_writes hi h1 h3 h2 _⟩

end Sys2Proof
end

section
/-! SUPPORT. The engine commands (42_montgomery_engine.md R151 to R171): one equation per command, and what a command does
whose value meets a contract in domain and is the open function's value out of it. -/
namespace Sys2Proof

open Sys2Proof.Machine

section commands
variable (s : State)

theorem exec_mmul (vd va vb vm : VReg) (xn : XReg) :
    exec (.mmul vd va vb vm xn) s = .next (s.writeV vd (mulValue (s.readV va) (s.readV vb) (s.readV vm) (s.readX xn))) := rfl
theorem exec_msqr (vd va vm : VReg) (xn : XReg) :
    exec (.msqr vd va vm xn) s = .next (s.writeV vd (sqrValue (s.readV va) (s.readV vm) (s.readX xn))) := rfl
theorem exec_mred (vd : VReg) (wa : WReg) (vm : VReg) (xn : XReg) :
    exec (.mred vd wa vm xn) s = .next (s.writeV vd (redValue (s.readW wa) (s.readV vm) (s.readX xn))) := rfl
theorem exec_mfrom (vd va vm : VReg) (xn : XReg) :
    exec (.mfrom vd va vm xn) s = .next (s.writeV vd (fromValue (s.readV va) (s.readV vm) (s.readX xn))) := rfl
theorem exec_madd (vd va vb vm : VReg) :
    exec (.madd vd va vb vm) s = .next (s.writeV vd (addValue (s.readV va) (s.readV vb) (s.readV vm))) := rfl
theorem exec_msub (vd va vb vm : VReg) :
    exec (.msub vd va vb vm) s = .next (s.writeV vd (subValue (s.readV va) (s.readV vb) (s.readV vm))) := rfl

end commands

/-- What holds of every state whose register holds the value written holds of the state a writing command leaves. -/
theorem completes_of_writeV_with {r : Result} {s : State} {i : VReg} {a : Vec} {P : State → Prop}
    (h : r = .next (s.writeV i a)) (hP : ∀ t, t.readV i = a → P t) :
    ∃ t, r = .next t ∧ ChangesOnly [.v i] s t ∧ P t := by
  obtain ⟨t, ht, hframe, hreg⟩ := completes_of_writeV h
  exact ⟨t, ht, hframe, hP t hreg⟩

/-- An operand is in the domain of the squaring exactly when it is, twice, in that of the product. -/
theorem mulDomain_self_iff (a m : Vec) (n0 : Limb) : MulDomain a a m n0 ↔ OneDomain a m n0 :=
  and_congr_right' and_self_iff

theorem sqrValue_spec (a m : Vec) (n0 : Limb) :
    (OneDomain a m n0 → IsReduced (sqrValue a m n0).toNat (a.toNat * a.toNat) m.toNat) ∧
      (¬ OneDomain a m n0 → sqrValue a m n0 = Config.oodMmul a a m n0) := by
  rw [sqrValue_eq, ← mulDomain_self_iff]
  exact mulValue_spec a a m n0

/-- Adding the modulus first makes the subtraction exact and does not change the integer difference modulo m. -/
theorem natCast_add_sub_mod {a b m : Nat} (h : b ≤ m) : (((a + m - b) % m : Nat) : Int) = ((a : Int) - b) % m := by
  have e : ((a + m - b : Nat) : Int) = (a : Int) - b + m := by omega
  rw [Int.natCast_mod, e, Int.add_emod_right]

/-- MSUB's value is the integer difference modulo m (42_montgomery_engine.md R170). -/
theorem subValue_int_spec (a b m : Vec) :
    (AddDomain a b m → ((subValue a b m).toNat : Int) = ((a.toNat : Int) - b.toNat) % m.toNat) ∧
      (¬ AddDomain a b m → subValue a b m = Config.oodMsub a b m) := by
  obtain ⟨inside, outside⟩ := subValue_spec a b m
  refine ⟨fun h => ?_, outside⟩
  have ⟨_, _, hb⟩ := h
  rw [inside h, natCast_add_sub_mod hb.le]

/-- Settles O40: MMUL writes `mulValue`, which meets the product's contract. -/
theorem mmulWritesTheMontgomeryProduct : Obligations.MmulWritesTheMontgomeryProduct := fun s vd va vb vm xn =>
  completes_of_writeV_with (exec_mmul s vd va vb vm xn) fun _ ht => ht ▸ mulValue_spec _ _ _ _

/-- Settles O41: MSQR writes `sqrValue`, which meets the product's contract with the operand twice. -/
theorem msqrWritesTheMontgomerySquare : Obligations.MsqrWritesTheMontgomerySquare := fun s vd va vm xn =>
  completes_of_writeV_with (exec_msqr s vd va vm xn) fun _ ht => ht ▸ sqrValue_spec _ _ _

/-- Settles O42: MRED writes `redValue`, which meets the reduction's contract. -/
theorem mredWritesTheReduction : Obligations.MredWritesTheReduction := fun s vd wa vm xn =>
  completes_of_writeV_with (exec_mred s vd wa vm xn) fun _ ht => ht ▸ redValue_spec _ _ _

/-- Settles O43: MFROM writes `fromValue`, which meets the reduction's contract on a V operand. -/
theorem mfromWritesTheStandardForm : Obligations.MfromWritesTheStandardForm := fun s vd va vm xn =>
  completes_of_writeV_with (exec_mfrom s vd va vm xn) fun _ ht => ht ▸ fromValue_spec _ _ _

/-- Settles O44: MADD writes `addValue`, which is the modular sum. -/
theorem maddWritesTheModularSum : Obligations.MaddWritesTheModularSum := fun s vd va vb vm =>
  completes_of_writeV_with (exec_madd s vd va vb vm) fun _ ht => ht ▸ addValue_spec _ _ _

/-- Settles O45: MSUB writes `subValue`, which is the integer difference modulo m. -/
theorem msubWritesTheModularDifference : Obligations.MsubWritesTheModularDifference := fun s vd va vb vm =>
  completes_of_writeV_with (exec_msub s vd va vb vm) fun _ ht => ht ▸ subValue_int_spec _ _ _

/-- Settles O46: each command's equation, with the value that its contract gives out of domain. -/
theorem outOfDomainCommandsWriteTheOpenValue : Obligations.OutOfDomainCommandsWriteTheOpenValue := by
  refine fun s vd va vb vm wa xn => ⟨fun h => ?_, fun h => ⟨?_, ?_⟩, fun h => ?_, fun h => ⟨?_, ?_⟩⟩
  · rw [exec_mmul, (mulValue_spec _ _ _ _).2 h]
  · rw [exec_msqr, (sqrValue_spec _ _ _).2 h]
  · rw [exec_mfrom, (fromValue_spec _ _ _).2 h]
  · rw [exec_mred, (redValue_spec _ _ _).2 h]
  · rw [exec_madd, (addValue_spec _ _ _).2 h]
  · rw [exec_msub, (subValue_spec _ _ _).2 h]

/-- Settles O47: in domain or not, MSQR's value is MMUL's with the operand twice. -/
theorem squaringIsMultiplyingByItself : Obligations.SquaringIsMultiplyingByItself := fun s vd va vm xn => by
  rw [exec_msqr, exec_mmul, sqrValue_eq]

end Sys2Proof
end

section
/-! SUPPORT. The host's moves on a block, frozen or not (20_memory.md R60, 60_exceptions.md R192, R193): what the buffer
moves can do, the step of each host access, and which moves keep ILL. -/
namespace Sys2Proof

open Sys2Proof.Machine

/-- A word has no command exactly when it is illegal by the table of 30_encoding.md R86. -/
theorem decode_error_iff_not_legalByTable (c : CmdWord) : (∃ e, decode c = .error e) ↔ ¬ LegalByTable c := by
  rw [← decodes_iff_legalByTable]
  cases decode c <;> simp

/-- A host write of a byte that answers a next state stored the byte. -/
theorem writeBMove_next {a : Nat} {b : Byte} {s t : State} (h : writeBMove a b s = .next t) :
    ∃ m, s.b.write a b = some m ∧ t = { s with b := m } := by
  unfold writeBMove at h
  split at h
  · rename_i m hm
    exact ⟨m, hm, (Host.Outcome.next.inj h).symm⟩
  · cases h

/-- A host read of a byte that answers a next state gave the byte. -/
theorem readBMove_next {a : Nat} {s t : State} (h : readBMove a s = .next t) :
    ∃ b, s.b.read a = some b ∧ t = s.give (.byte b) := by
  unfold readBMove at h
  split at h
  · rename_i b hb
    exact ⟨b, hb, (Host.Outcome.next.inj h).symm⟩
  · cases h

/-- What the write of one byte changes. -/
theorem changesOnly_writeByte {s : State} {m : Memory} {a : Nat} {b : Byte} (h : s.b.write a b = some m) :
    ChangesOnly [.b a] s { s with b := m } := by
  obtain ⟨-, -, others⟩ := Memory.write_spec h
  exact ⟨fun _ _ => rfl, fun _ _ => rfl, fun _ _ => rfl, fun a' ha => others a' (by simpa using ha), rfl, rfl, rfl, rfl⟩

section access
variable {s : State} {rest : List Move}

theorem step_writeB {a : Fin 256} {b : Byte} (hw : BufferFormed s) (h : s.moves = .writeB a b :: rest) :
    ∃ t, step s = .next t ∧ t.b.read a = some b ∧ ChangesOnly [.b a] { s with moves := rest } t := by
  obtain ⟨m, hm⟩ := Memory.write_isSome_of_wf hw a.isLt b
  obtain ⟨-, stored, -⟩ := Memory.write_spec hm
  refine ⟨{ s with moves := rest, b := m }, ?_, stored, changesOnly_writeByte hm⟩
  simp [step_cons h, makeMove, writeBMove, hm]
theorem step_readB {a : Fin 256} (hw : BufferFormed s) (h : s.moves = .readB a :: rest) :
    ∃ b, s.b.read a = some b ∧ step s = .next { s with moves := rest, answers := s.answers ++ [.byte b] } := by
  obtain ⟨b, hb⟩ := (Memory.read_isSome_iff hw a).2 a.isLt
  exact ⟨b, hb, by simp [step_cons h, makeMove, readBMove, hb, State.give]⟩
theorem step_writeX {i : XReg} {w : Limb} (h : s.moves = .writeX i w :: rest) :
    ∃ t, step s = .next t ∧ t.readX i = w ∧ ChangesOnly [.x i] { s with moves := rest } t :=
  ⟨_, step_cons h, readX_writeX_same _ i w, changesOnly_writeX _ i w⟩
theorem step_readX {i : XReg} (h : s.moves = .readX i :: rest) :
    step s = .next { s with moves := rest, answers := s.answers ++ [.word (s.readX i)] } := step_cons h
theorem step_readStatus (h : s.moves = .readStatus :: rest) :
    step s = .next { s with moves := rest, answers := s.answers ++ [.status s.status] } := step_cons h

end access

/-- A host access, a move that is neither Issue nor Reset, keeps ILL. -/
theorem makeMove_access_ill {run : Instr → State → Result} {mv : Move} {s t : State}
    (h : makeMove run mv s = .next t) (hi : ∀ c, mv ≠ .issue c) (hr : mv ≠ .reset) : t.ill = s.ill := by
  cases mv with
  | issue c => exact absurd rfl (hi c)
  | writeB a b => obtain ⟨m, -, rfl⟩ := writeBMove_next h; rfl
  | readB a => obtain ⟨b, -, rfl⟩ := readBMove_next h; rfl
  | writeX | readX | readStatus => cases h; rfl
  | reset => exact absurd rfl hr

/-- No move but Reset takes a block out of the frozen state (60_exceptions.md R193). -/
theorem makeMove_keeps_frozen {run : Instr → State → Result} {mv : Move} {s t : State}
    (h : makeMove run mv s = .next t) (hill : s.ill = true) (hr : mv ≠ .reset) : t.ill = true := by
  by_cases hi : ∃ c, mv = .issue c
  · obtain ⟨c, rfl⟩ := hi
    cases (issueMove_frozen hill).symm.trans h
    exact hill
  · rw [makeMove_access_ill h (fun c e => hi ⟨c, e⟩) hr, hill]

/-- Settles O8: the word does not decode, and Issue then raises Illegal. -/
theorem illegalWordOnlySetsIll : Obligations.IllegalWordOnlySetsIll := fun s c rest hm hill hc => by
  obtain ⟨e, he⟩ := (decode_error_iff_not_legalByTable c).2 hc
  rw [step_cons hm]
  exact issueMove_illegal hill he

/-- Settles O9: Issue does nothing on a frozen block, and each host access is as on any block. -/
theorem frozenBlockServesOnlyTheHost : Obligations.FrozenBlockServesOnlyTheHost := by
  intro s mv rest hw hm hill
  refine ⟨?issue, ?writeB, ?readB, ?writeX, ?readX, ?readStatus, ?reset, ?others⟩
  case issue => rintro c rfl; exact (step_cons hm).trans (issueMove_frozen hill)
  case writeB => rintro a b rfl; exact step_writeB hw hm
  case readB => rintro a rfl; exact step_readB hw hm
  case writeX => rintro i w rfl; exact step_writeX hm
  case readX => rintro i rfl; exact step_readX hm
  case readStatus => rintro rfl; simp [step_readStatus hm, status_eq, hill]
  case reset => rintro rfl; exact ⟨_, step_cons hm, rfl⟩
  case others => exact fun hr t ht => makeMove_keeps_frozen ((step_cons hm).symm.trans ht) hill hr

end Sys2Proof
end

section
/-! SUPPORT. Encoding and decoding are inverse (30_encoding.md R82 to R87). -/
namespace Sys2Proof

/-- The word of every command carries the command's own opcode, and is 0 where R86 wants 0. -/
theorem encodedHeader (i : Instr) : Laws.EncodedHeader.Statement i := by
  cases i with
  | mmul => exact Laws.EncodedHeader.mmul ..
  | msqr => exact Laws.EncodedHeader.msqr ..
  | mred => exact Laws.EncodedHeader.mred ..
  | mfrom => exact Laws.EncodedHeader.mfrom ..
  | madd => exact Laws.EncodedHeader.madd ..
  | msub => exact Laws.EncodedHeader.msub ..
  | isz => exact Laws.EncodedHeader.isz ..
  | visz => exact Laws.EncodedHeader.visz ..
  | wisz => exact Laws.EncodedHeader.wisz ..
  | veq => exact Laws.EncodedHeader.veq ..
  | weq => exact Laws.EncodedHeader.weq ..
  | vcpy => exact Laws.EncodedHeader.vcpy ..
  | wcpy => exact Laws.EncodedHeader.wcpy ..
  | vzero => exact Laws.EncodedHeader.vzero ..
  | wzero => exact Laws.EncodedHeader.wzero ..
  | vldbe => exact Laws.EncodedHeader.vldbe ..
  | vstbe => exact Laws.EncodedHeader.vstbe ..
  | vldle => exact Laws.EncodedHeader.vldle ..
  | vstle => exact Laws.EncodedHeader.vstle ..
  | wldbe => exact Laws.EncodedHeader.wldbe ..
  | wstbe => exact Laws.EncodedHeader.wstbe ..
  | wldle => exact Laws.EncodedHeader.wldle ..
  | wstle => exact Laws.EncodedHeader.wstle ..

/- The operand fields as numbers: the decoder's index types drop no bit of a field. -/

theorem rdOf_val (c : CmdWord) : (rdOf c).val = field c 23 20 := Nat.mod_eq_of_lt (field_lt c 23 20)
theorem raOf_val (c : CmdWord) : (raOf c).val = field c 19 16 := Nat.mod_eq_of_lt (field_lt c 19 16)
theorem rbOf_val (c : CmdWord) : (rbOf c).val = field c 15 12 := Nat.mod_eq_of_lt (field_lt c 15 12)
theorem rmOf_val (c : CmdWord) : (rmOf c).val = field c 11 8 := Nat.mod_eq_of_lt (field_lt c 11 8)
theorem xnOf_val (c : CmdWord) : (xnOf c).val = field c 7 4 := Nat.mod_eq_of_lt (field_lt c 7 4)
theorem offOf_val (c : CmdWord) : (offOf c).val = field c 19 12 := Nat.mod_eq_of_lt (field_lt c 19 12)
theorem lenOf_val (c : CmdWord) : (lenOf c).val = field c 11 5 := Nat.mod_eq_of_lt (field_lt c 11 5)

/-- Condition 3 of 30_encoding.md R86, of a word, is well-formedness of the command with its fields. -/
theorem Opcode.wellFormed_operands (o : Opcode) (c : CmdWord) : (o.operands c).wellFormed = o.rangeOk c := by
  cases o with
  | vldbe | vstbe | vldle | vstle | wldbe | wstbe | wldle | wstle =>
    simp only [Opcode.operands, Instr.wellFormed, Opcode.rangeOk, Opcode.maxLen, lengthLegal_eq, offOf_val, lenOf_val]
  | _ => rfl

/-- The fields of a command's word are its operands: by the fields of a word of its format. -/
theorem operands_encode (i : Instr) : i.opcode.operands (encode i) = i := by
  cases i with
  | mmul | msqr | mred | mfrom | madd | msub =>
    simp [Instr.opcode, encode, Opcode.operands, Fin.ext_iff, rdOf_val, raOf_val, rbOf_val, rmOf_val, xnOf_val, field_wordM]
  | isz | visz | wisz | veq | weq | vcpy | wcpy | vzero | wzero =>
    simp [Instr.opcode, encode, Opcode.operands, Fin.ext_iff, rdOf_val, raOf_val, rbOf_val, field_wordP]
  | vldbe | vstbe | vldle | vstle | wldbe | wstbe | wldle | wstle =>
    simp [Instr.opcode, encode, Opcode.operands, Fin.ext_iff, rdOf_val, offOf_val, lenOf_val, field_wordC]

/-- Settles O2: the word of a command carries its opcode, passes R86's conditions, and its fields are the operands. -/
theorem decodeOfEncodeIsTheCommand : Obligations.DecodeOfEncodeIsTheCommand := fun i hi => by
  obtain ⟨hcode, hzeros⟩ := encodedHeader i
  have hrange : i.opcode.rangeOk (encode i) = true := by rw [← Opcode.wellFormed_operands, operands_encode, hi]
  exact (decode_ok_iff _ _).2 ⟨i.opcode, by rw [hcode, Opcode.ofCode_code], hzeros, hrange, operands_encode i⟩

/- A word is its fields: a word of each format is made again from the fields read from it. -/

theorem wordM_fields {op : Opcode} {c : CmdWord} (hcode : field c 31 24 = op.code) (hzero : field c 3 0 = 0) :
    wordM op (field c 23 20) (field c 19 16) (field c 15 12) (field c 11 8) (field c 7 4) = c := by
  apply BitVec.eq_of_toNat_eq
  have hc := c.isLt
  simp only [wordM, BitVec.toNat_ofNat, ← hcode, field] at *
  omega
theorem wordP_fields {op : Opcode} {c : CmdWord} (hcode : field c 31 24 = op.code) (hzero : field c 11 0 = 0) :
    wordP op (field c 23 20) (field c 19 16) (field c 15 12) = c := by
  apply BitVec.eq_of_toNat_eq
  have hc := c.isLt
  simp only [wordP, BitVec.toNat_ofNat, ← hcode, field] at *
  omega
theorem wordC_fields {op : Opcode} {c : CmdWord} (hcode : field c 31 24 = op.code) (hzero : field c 4 0 = 0) :
    wordC op (field c 23 20) (field c 19 12) (field c 11 5) = c := by
  apply BitVec.eq_of_toNat_eq
  have hc := c.isLt
  simp only [wordC, BitVec.toNat_ofNat, ← hcode, field] at *
  omega

/-- A word that passes conditions 1 and 2 of 30_encoding.md R86 is the word of the command with its fields: the fields its
command does not use are 0. -/
theorem encode_operands {o : Opcode} {c : CmdWord} (hcode : field c 31 24 = o.code) (hzeros : o.zerosOk c = true) :
    encode (o.operands c) = c := by
  rw [Opcode.zerosOk_iff] at hzeros
  cases o with
  | mmul | msqr | mred | mfrom | madd | msub =>
    simp only [Opcode.zeroFields, List.forall_mem_cons] at hzeros
    simpa only [Opcode.operands, encode, rdOf_val, raOf_val, rbOf_val, rmOf_val, xnOf_val, hzeros] using
      wordM_fields hcode (by simp only [hzeros])
  | isz | visz | wisz | veq | weq | vcpy | wcpy | vzero | wzero =>
    simp only [Opcode.zeroFields, List.forall_mem_cons] at hzeros
    simpa only [Opcode.operands, encode, rdOf_val, raOf_val, rbOf_val, hzeros] using
      wordP_fields hcode (by simp only [hzeros])
  | vldbe | vstbe | vldle | vstle | wldbe | wstbe | wldle | wstle =>
    simp only [Opcode.zeroFields, List.forall_mem_cons] at hzeros
    simpa only [Opcode.operands, encode, rdOf_val, offOf_val, lenOf_val] using wordC_fields hcode (by simp only [hzeros])

/-- Settles O3: the word passed the three conditions, so it is the word of the command with its fields. -/
theorem decodedWordIsTheEncoding : Obligations.DecodedWordIsTheEncoding := fun c i h => by
  obtain ⟨o, ho, hzeros, hrange, rfl⟩ := (decode_ok_iff c i).1 h
  exact ⟨encode_operands (Opcode.code_of_ofCode ho).symm hzeros, (o.wellFormed_operands c).trans hrange⟩

/-- Settles O5: what does not decode is what is not legal by the table, and an opcode outside the table is no command's. -/
theorem everyOtherWordIsIllegal : Obligations.EveryOtherWordIsIllegal := by
  refine ⟨decode_error_iff_not_legalByTable, fun c hc => ?_, by decide, by decide⟩
  have hnone : Opcode.ofCode (field c 31 24) = none := by
    rw [Option.eq_none_iff_forall_ne_some]
    exact fun o ho => hc o o.mem_all ((field_eq_toNat_extractLsb' c 31 24).symm.trans ((Opcode.ofCode_eq_some_iff _ o).1 ho))
  simp only [decode, hnone]

/-- Settles O1: the decoder run on each of the 23 words. -/
theorem exampleWordsDecode : Obligations.ExampleWordsDecode := by
  unfold Obligations.ExampleWordsDecode
  decide

end Sys2Proof
end

section
/-! SUPPORT. The assembler emits legal words (30_encoding.md R90 to R92): an Issue only of a well-formed command's word. -/
namespace Sys2Proof

open Sys2Proof.Machine Asm

/-- A move that is not an Issue: the host's own. -/
def IsHostMove (mv : Move) : Prop := ∀ c, mv ≠ .issue c

/-- Moves that issue no word issue only legal words. -/
theorem allLegal_of_isHostMove {ms : List Move} (h : ∀ mv ∈ ms, IsHostMove mv) : allLegal ms = true := by
  refine List.all_eq_true.2 fun mv hmv => ?_
  cases mv with
  | issue c => exact absurd rfl (h _ hmv c)
  | _ => rfl

/-- The word of a well-formed command is legal. -/
theorem allLegal_issue_encode {i : Instr} (hi : i.wellFormed = true) : allLegal [.issue (encode i)] = true := by
  simp [allLegal, decodeOfEncodeIsTheCommand i hi]

theorem writeRun_isHostMove {off : Nat} {bs : List Byte} {ms : List Move} (h : writeRun off bs = some ms) :
    ∀ mv ∈ ms, IsHostMove mv := by
  induction bs generalizing off ms with
  | nil => cases h; simp
  | cons b bs ih =>
    simp only [writeRun, Option.dite_none_right_eq_some, Option.map_eq_some_iff] at h
    obtain ⟨_, ms', hms', rfl⟩ := h
    exact List.forall_mem_cons.2 ⟨fun _ => Move.noConfusion, ih hms'⟩
theorem readRun_isHostMove {off n : Nat} {ms : List Move} (h : readRun off n = some ms) : ∀ mv ∈ ms, IsHostMove mv := by
  induction n generalizing off ms with
  | zero => cases h; simp
  | succ n ih =>
    simp only [readRun, Option.dite_none_right_eq_some, Option.map_eq_some_iff] at h
    obtain ⟨_, ms', hms', rfl⟩ := h
    exact List.forall_mem_cons.2 ⟨fun _ => Move.noConfusion, ih hms'⟩

/-- The host's own lines stand for moves that are not Issues. -/
theorem hostMoves_isHostMove {name : List Char} {ops : List (List Char)} {ms : List Move}
    (h : hostMoves name ops = some ms) : ∀ mv ∈ ms, IsHostMove mv := by
  have single {mv : Move} (hmv : IsHostMove mv) : ∀ mv' ∈ [mv], IsHostMove mv' := by simpa using hmv
  unfold hostMoves at h
  split at h
  · split_ifs at h <;> cases h
    · exact single fun _ => Move.noConfusion
    · exact single fun _ => Move.noConfusion
  · split_ifs at h
    obtain ⟨i, -, rfl⟩ := Option.map_eq_some_iff.1 h
    exact single fun _ => Move.noConfusion
  · split_ifs at h
    · obtain ⟨i, -, h⟩ := Option.bind_eq_some_iff.1 h
      obtain ⟨n, -, h⟩ := Option.bind_eq_some_iff.1 h
      split_ifs at h
      cases h
      exact single fun _ => Move.noConfusion
    · obtain ⟨o, -, h⟩ := Option.bind_eq_some_iff.1 h
      obtain ⟨bs, -, h⟩ := Option.bind_eq_some_iff.1 h
      exact writeRun_isHostMove h
    · obtain ⟨o, -, h⟩ := Option.bind_eq_some_iff.1 h
      obtain ⟨n, -, h⟩ := Option.bind_eq_some_iff.1 h
      exact readRun_isHostMove h
  · cases h

/-- What a line assembles to: no move, the Issue of one well-formed command's word, or moves of the host's own. -/
theorem assembleLine_cases {line : String} {ms : List Move} (h : assembleLine line = some ms) :
    ms = [] ∨ (∃ i : Instr, i.wellFormed = true ∧ ms = [.issue (encode i)]) ∨ ∀ mv ∈ ms, IsHostMove mv := by
  unfold assembleLine at h
  extract_lets code name rest ops at h
  split_ifs at h with hcode
  · exact .inl (Option.some.inj h).symm
  · split at h
    · rename_i i _
      split_ifs at h with hi
      exact .inr (.inl ⟨i, hi, (Option.some.inj h).symm⟩)
    · exact .inr (.inr (hostMoves_isHostMove h))

/-- Settles O6: the one Issue of a line is of a well-formed command, whose word decodes. -/
theorem assembledWordsAreLegal : Obligations.AssembledWordsAreLegal := fun _ _ h => by
  obtain rfl | ⟨i, hi, rfl⟩ | hhost := assembleLine_cases h
  · rfl
  · exact allLegal_issue_encode hi
  · exact allLegal_of_isHostMove hhost

end Sys2Proof
end

section
/-! SUPPORT. What a step can do, said once, and what every step keeps (20_memory.md R50, R60, 60_exceptions.md R190 to R194,
70_reset_and_hazards.md R211, R224): the buffer's form, ILL outside an illegal word, and a legal run. -/
namespace Sys2Proof

open Sys2Proof.Machine

/-- The move gives the host something back and changes nothing of the block. -/
def IsHostRead : Move → Prop
  | .readB _ | .readX _ | .readStatus => True
  | .issue _ | .writeB _ _ | .writeX _ _ | .reset => False

/-- What a move that answers the next state `t` has done to the block `s` (20_memory.md R60, 60_exceptions.md R192, R193). -/
inductive MoveEffect (s : State) : Move → State → Prop
  | ignored {c : CmdWord} (frozen : s.ill = true) : MoveEffect s (.issue c) s
  | performed {c : CmdWord} {i : Instr} {t : State} (running : s.ill = false) (decoded : decode c = .ok i)
      (done : exec i s = .next t) : MoveEffect s (.issue c) t
  | illegal {c : CmdWord} (running : s.ill = false) (refused : ¬ LegalByTable c) :
      MoveEffect s (.issue c) { s with ill := true }
  | byteWritten {a : Fin 256} {b : Byte} {m : Memory} (stored : s.b.write a b = some m) :
      MoveEffect s (.writeB a b) { s with b := m }
  | wordWritten {i : XReg} {w : Limb} : MoveEffect s (.writeX i w) (s.writeX i w)
  | given {mv : Move} {a : Answer} (isRead : IsHostRead mv) : MoveEffect s mv (s.give a)
  | reset {t : State} (drawn : resetMove s = .next t) : MoveEffect s .reset t

theorem makeMove_effect {mv : Move} {s t : State} (h : makeMove exec mv s = .next t) : MoveEffect s mv t := by
  cases mv with
  | issue c =>
    by_cases hill : s.ill = true
    · cases (issueMove_frozen hill).symm.trans h
      exact .ignored hill
    · rw [Bool.not_eq_true] at hill
      cases hd : decode c with
      | ok i => exact .performed hill hd ((issueMove_legal hill hd).symm.trans h)
      | error e =>
        cases (issueMove_illegal hill hd).symm.trans h
        exact .illegal hill ((decode_error_iff_not_legalByTable c).1 ⟨e, hd⟩)
  | writeB a b =>
    obtain ⟨m, hm, rfl⟩ := writeBMove_next h
    exact .byteWritten hm
  | readB a =>
    obtain ⟨b, -, rfl⟩ := readBMove_next h
    exact .given trivial
  | writeX i w => cases h; exact .wordWritten
  | readX | readStatus => cases h; exact .given trivial
  | reset => exact .reset h

/-- A step waits, or makes the next move on the state in which the move has been taken. -/
theorem step_cases {s t : State} (h : step s = .next t) :
    (s.moves = [] ∧ t = s) ∨ ∃ mv rest, s.moves = mv :: rest ∧ MoveEffect { s with moves := rest } mv t := by
  cases hm : s.moves with
  | nil => exact .inl ⟨rfl, (Host.Outcome.next.inj ((step_nil hm).symm.trans h)).symm⟩
  | cons mv rest => exact .inr ⟨mv, rest, rfl, makeMove_effect ((step_cons hm).symm.trans h)⟩

/- What a command keeps. -/

/-- Every command, well formed or not, keeps the buffer's form. -/
theorem exec_keeps_form {i : Instr} {s t : State} (hw : BufferFormed s) (h : exec i s = .next t) : BufferFormed t := by
  obtain ⟨-, ⟨vd, a, -, rfl⟩ | ⟨wd, a, -, rfl⟩ | ⟨xd, a, -, rfl⟩ | ⟨off, bs, m, -, hm, rfl⟩⟩ | ⟨-, rfl⟩ := exec_next_cases h
  · exact hw
  · exact hw
  · exact hw
  · exact Memory.writeBytes_wf hw hm
  · exact hw

/-- The command of a legal word changes only the places it writes. -/
theorem exec_changesOnly_of_decode {c : CmdWord} {i : Instr} {s t : State} (hd : decode c = .ok i)
    (h : exec i s = .next t) : ChangesOnly (writes i) s t :=
  exec_changesOnly_writes (decodedWordIsTheEncoding c i hd).2 h

/- What a move keeps. -/

section effect
variable {s t : State} {mv : Move}

theorem MoveEffect.keeps_form (h : MoveEffect s mv t) (hw : BufferFormed s) : BufferFormed t := by
  cases h with
  | performed _ _ done => exact exec_keeps_form hw done
  | byteWritten stored => exact Memory.write_wf hw stored
  | reset drawn => cases drawn; exact Memory.image_wf _
  | ignored | illegal | wordWritten | given => exact hw

/-- No move takes another one from the host's list. -/
theorem MoveEffect.moves (h : MoveEffect s mv t) : t.moves = s.moves := by
  cases h with
  | performed _ decoded done => exact (exec_changesOnly_of_decode decoded done).moves
  | reset drawn => cases drawn; rfl
  | ignored | illegal | byteWritten | wordWritten | given => rfl

/-- ILL is set by an illegal word only. -/
theorem MoveEffect.keeps_ill_zero (h : MoveEffect s mv t) (hill : s.ill = false)
    (hlegal : ∀ c, mv = .issue c → LegalByTable c) : t.ill = false := by
  cases h with
  | performed _ decoded done => exact (exec_changesOnly_of_decode decoded done).ill.trans hill
  | illegal _ refused => exact absurd (hlegal _ rfl) refused
  | reset drawn => cases drawn; rfl
  | ignored | byteWritten | wordWritten | given => exact hill

end effect

/-- Settles O16: the buffer is written by stores, host writes and Reset, and each keeps its addresses. -/
theorem stepKeepsTheBufferForm : Obligations.StepKeepsTheBufferForm := fun s t hw h => by
  obtain ⟨-, rfl⟩ | ⟨mv, rest, -, heffect⟩ := step_cases h
  · exact hw
  · exact heffect.keeps_form hw

/-- Settles O14: no other move leaves the frozen state, and the wait changes nothing. -/
theorem onlyResetLeavesTheFrozenState : Obligations.OnlyResetLeavesTheFrozenState := fun s t h hs ht => by
  cases hm : s.moves with
  | nil =>
    cases (step_nil hm).symm.trans h
    simp [hs] at ht
  | cons mv rest =>
    by_cases hr : mv = .reset
    · exact ⟨rest, by rw [hr]⟩
    · have frozen : t.ill = true := makeMove_keeps_frozen ((step_cons hm).symm.trans h) hs hr
      simp [ht] at frozen

/-- Settles O15: a move that issues no illegal word leaves ILL = 0. -/
theorem onlyAnIllegalWordSetsIll : Obligations.OnlyAnIllegalWordSetsIll := fun s t h hs ht => by
  obtain ⟨-, rfl⟩ | ⟨mv, rest, hm, heffect⟩ := step_cases h
  · simp [hs] at ht
  · by_contra hnone
    have hlegal : ∀ c, mv = .issue c → LegalByTable c := by
      rintro c rfl
      by_contra hc
      exact hnone ⟨c, rest, hm, hc⟩
    simp [heffect.keeps_ill_zero hs hlegal] at ht

/- No step hangs: every move on a formed buffer answers a next state. -/

/-- A well-formed command completes on a formed buffer. -/
theorem exec_completes {i : Instr} {s : State} (hw : BufferFormed s) (hi : i.wellFormed = true) :
    ∃ t, exec i s = .next t := by
  obtain ⟨t, _, ht, -, -⟩ := exec_sameAt hw hw hi fun _ _ => rfl
  exact ⟨t, ht⟩

theorem makeMove_completes {mv : Move} {s : State} (hw : BufferFormed s) : ∃ t, makeMove exec mv s = .next t := by
  cases mv with
  | issue c =>
    by_cases hill : s.ill = true
    · exact ⟨s, issueMove_frozen hill⟩
    · rw [Bool.not_eq_true] at hill
      cases hd : decode c with
      | ok i =>
        obtain ⟨t, ht⟩ := exec_completes hw (decodedWordIsTheEncoding c i hd).2
        exact ⟨t, (issueMove_legal hill hd).trans ht⟩
      | error e => exact ⟨_, issueMove_illegal hill hd⟩
  | writeB a b =>
    obtain ⟨m, hm⟩ := Memory.write_isSome_of_wf hw a.isLt b
    exact ⟨{ s with b := m }, by simp [makeMove, writeBMove, hm]⟩
  | readB a =>
    obtain ⟨b, hb⟩ := (Memory.read_isSome_iff hw a).2 a.isLt
    exact ⟨s.give (.byte b), by simp [makeMove, readBMove, hb]⟩
  | writeX | readX | readStatus | reset => exact ⟨_, rfl⟩

/-- Settles O18: every move completes on a formed buffer, and none but the step takes a move. -/
theorem noStepHangs : Obligations.NoStepHangs := fun s hw => by
  cases hm : s.moves with
  | nil => exact ⟨s, step_nil hm, hm⟩
  | cons mv rest =>
    obtain ⟨t, ht⟩ := makeMove_completes (mv := mv) (s := { s with moves := rest }) hw
    exact ⟨t, (step_cons hm).trans ht, (makeMove_effect ht).moves⟩

/- Runs of legal words. -/

/-- The first of the moves issues no illegal word, and neither do the rest. -/
theorem allLegal_cons {mv : Move} {ms : List Move} (h : allLegal (mv :: ms) = true) :
    (∀ c, mv = .issue c → LegalByTable c) ∧ allLegal ms = true := by
  simp only [allLegal, List.all_cons, Bool.and_eq_true] at h
  obtain ⟨first, others⟩ := h
  refine ⟨?_, others⟩
  rintro c rfl
  rw [← decodes_iff_legalByTable]
  cases hd : decode c with
  | ok i => exact ⟨i, rfl⟩
  | error e => simp [hd] at first

theorem step_keeps_legalRun {s t : State} (hs : OnLegalRun s) (h : step s = .next t) : OnLegalRun t := by
  obtain ⟨hw, hill, hlegal⟩ := hs
  obtain ⟨-, rfl⟩ | ⟨mv, rest, hm, heffect⟩ := step_cases h
  · exact ⟨hw, hill, hlegal⟩
  · rw [hm] at hlegal
    obtain ⟨first, others⟩ := allLegal_cons hlegal
    exact ⟨heffect.keeps_form hw, heffect.keeps_ill_zero hill first, heffect.moves.symm ▸ others⟩

/-- Settles O60: the buffer's form by O16's lemma, ILL = 0 since the word just issued is legal. -/
theorem stepKeepsTheLegalRun : Obligations.StepKeepsTheLegalRun :=
  ⟨fun _ _ => step_keeps_legalRun, fun _ hms => ⟨Memory.image_wf 0, rfl, hms⟩⟩

theorem run_succ_of_step {M : Host.Core} {s s' : M.State} (h : M.step s = .next s') (k : Nat) :
    M.run (k + 1) s = M.run k s' := by
  rw [Host.Core.run, h]

/-- A legal run goes on as one, for every number of steps. -/
theorem run_keeps_legalRun (k : Nat) {s : State} (hs : OnLegalRun s) :
    ∃ t, Host.Core.run core k s = .next t ∧ OnLegalRun t := by
  induction k generalizing s with
  | zero => exact ⟨s, rfl, hs⟩
  | succ k ih =>
    obtain ⟨s', hstep, -⟩ := noStepHangs s hs.1
    obtain ⟨t, hrun, ht⟩ := ih (step_keeps_legalRun hs hstep)
    exact ⟨t, (run_succ_of_step (M := core) hstep k).trans hrun, ht⟩

/-- Settles O19: the state reached is on a legal run, which has ILL = 0 and a formed buffer. -/
theorem legalRunsEndWell : Obligations.LegalRunsEndWell := fun k s hw hill hlegal => by
  obtain ⟨t, hrun, hform, hend, -⟩ := run_keeps_legalRun k (s := s) ⟨hw, hill, hlegal⟩
  exact ⟨t, hrun, hend, hform⟩

/- The wide registers. -/

/-- The commands that write a W register. -/
theorem wide_command_of_writes {i : Instr} {r : WReg} (h : Place.w r ∈ writes i) :
    (∃ wd off len, i = .wldbe wd off len) ∨ (∃ wd off len, i = .wldle wd off len) ∨ (∃ wd wa, i = .wcpy wd wa) ∨
      ∃ wd, i = .wzero wd := by
  cases i <;> simp [writes, bufferRange] at h ⊢

/-- Settles O21: a move other than Reset and the command of a legal word writes no W register, and the command only those
it names. -/
theorem wideRegistersChangeOnlyByTheirCommands : Obligations.WideRegistersChangeOnlyByTheirCommands := fun s t h ⟨r, hr⟩ => by
  obtain ⟨-, rfl⟩ | ⟨mv, rest, hm, heffect⟩ := step_cases h
  · exact absurd rfl hr
  · cases heffect with
    | performed _ decoded done =>
      have hwritten := not_imp_comm.1 ((exec_changesOnly_of_decode decoded done).w r) hr
      exact .inr ⟨_, rest, _, hm, decoded, wide_command_of_writes hwritten⟩
    | reset => exact .inl ⟨rest, hm⟩
    | ignored | illegal | byteWritten | wordWritten | given => exact absurd rfl hr

/- The trace of a word. -/

theorem look_with_moves (s : State) (ms : List Move) (p : Place) : State.look { s with moves := ms } p = s.look p := by
  cases p <;> rfl
/-- Setting ILL is seen at STATUS alone. -/
theorem look_with_ill {s : State} {p : Place} (hp : p ≠ .status) (c : Bool) : State.look { s with ill := c } p = s.look p := by
  cases p with
  | status => exact absurd rfl hp
  | v | w | x | b => rfl

section issue
variable {s : State} {c : CmdWord} {rest : List Move} (hm : s.moves = .issue c :: rest) (hill : s.ill = false)
include hm hill

theorem step_legal {i : Instr} (hd : decode c = .ok i) : step s = exec i { s with moves := rest } :=
  (step_cons hm).trans (issueMove_legal hill hd)
theorem step_illegal {e : DecodeError} (hd : decode c = .error e) : step s = .next { s with moves := rest, ill := true } :=
  (step_cons hm).trans (issueMove_illegal hill hd)

/-- A word changes only what its trace says it writes. -/
theorem step_issue_frame (hw : BufferFormed s) : ∃ t, step s = .next t ∧ ∀ p, p ∉ (traceOf c).writes → t.look p = s.look p := by
  cases hd : decode c with
  | ok i =>
    have hi := (decodedWordIsTheEncoding c i hd).2
    obtain ⟨t, ht⟩ := exec_completes (s := { s with moves := rest }) hw hi
    rw [(traceOf_legal hd).2]
    exact ⟨t, (step_legal hm hill hd).trans ht, fun p hp =>
      ((exec_changesOnly_writes hi ht).look hp).trans (look_with_moves s rest p)⟩
  | error e =>
    rw [(traceOf_illegal hd).2]
    exact ⟨_, step_illegal hm hill hd, fun p hp =>
      (look_with_ill (mt List.mem_singleton.2 hp) true).trans (look_with_moves s rest p)⟩

/-- What a word writes depends only on what its trace says it reads: a legal one on its command's operands, an illegal one
on nothing but STATUS. -/
theorem step_issue_sameAt {s' : State} {rest' : List Move} (hm' : s'.moves = .issue c :: rest') (hw : BufferFormed s)
    (hw' : BufferFormed s') (hsame : ∀ p ∈ (traceOf c).reads, s.look p = s'.look p) :
    SameAt (traceOf c).writes (step s) (step s') := by
  cases hd : decode c with
  | ok i =>
    obtain ⟨hreads, hwrites⟩ := traceOf_legal hd
    rw [hreads, List.forall_mem_cons, look_status_eq_iff, hill] at hsame
    obtain ⟨hill', hplaces⟩ := hsame
    rw [hwrites, step_legal hm hill hd, step_legal hm' hill'.symm hd]
    exact exec_sameAt (s₁ := { s with moves := rest }) (s₂ := { s' with moves := rest' }) hw hw'
      (decodedWordIsTheEncoding c i hd).2 fun p hp =>
        (look_with_moves s rest p).trans ((hplaces p hp).trans (look_with_moves s' rest' p).symm)
  | error e =>
    obtain ⟨hreads, hwrites⟩ := traceOf_illegal hd
    rw [hreads, List.forall_mem_singleton, look_status_eq_iff, hill] at hsame
    rw [hwrites]
    exact ⟨_, _, step_illegal hm hill hd, step_illegal hm' hsame.symm hd,
      List.forall_mem_singleton.2 ((look_status_eq_iff _ _).2 rfl)⟩

end issue

/-- Settles O59: the frame and the dependence of a word, each for legal and illegal words. -/
theorem issuedWordsTouchOnlyWhatTheirTraceNames : Obligations.IssuedWordsTouchOnlyWhatTheirTraceNames :=
  fun _ _ _ hw hm hill => ⟨step_issue_frame hm hill hw, fun _ _ hw' hm' => step_issue_sameAt hm hill hm' hw hw'⟩

/-- Settles O7: Issue of a word that decodes to a block that is not frozen. -/
theorem stepPerformsTheDecodedCommand : Obligations.StepPerformsTheDecodedCommand := fun _ _ _ _ hm hill hd =>
  step_legal hm hill hd

end Sys2Proof
end

section
/-! SUPPORT. Host accesses, Reset, and commands that no word decodes to (20_memory.md R60, 10_state.md R28, R35,
70_reset_and_hazards.md R210, 41_byte_conversions.md R131). -/
namespace Sys2Proof

open Sys2Proof.Machine

/-- Settles O10, by the steps of the two host writes, frozen or not. -/
theorem hostWritesStoreInOnePlace : Obligations.HostWritesStoreInOnePlace :=
  ⟨fun _ _ _ _ hw hm => step_writeB hw hm, fun _ _ _ _ hm => step_writeX hm⟩

/-- STATUS is ILL in bit 0 and zero above it (10_state.md R28). -/
theorem getLsbD_status (s : State) : s.status.getLsbD 0 = s.ill ∧ ∀ k, 0 < k → s.status.getLsbD k = false := by
  rw [status_eq]
  cases s.ill with
  | false => simp
  | true => exact ⟨rfl, fun k hk => by simp [Nat.ne_of_gt hk]⟩

/-- Settles O11, by the steps of the three host reads. -/
theorem hostReadsGiveWhatIsThere : Obligations.HostReadsGiveWhatIsThere :=
  ⟨fun _ _ _ hw hm => step_readB hw hm, fun _ _ _ hm => step_readX hm,
    fun s _ hm => ⟨s.status, step_readStatus hm, getLsbD_status s⟩⟩

/-- A buffer made of a function over addresses holds the function's value at the addresses it lists. -/
theorem Machine.Memory.read_map (f : Nat → Byte) (as : List Nat) (a : Nat) :
    Memory.read (as.map fun a => (a, f a)) a = if a ∈ as then some (f a) else none := by
  induction as with
  | nil => rfl
  | cons a' as ih =>
    by_cases h : a' = a
    · simp [Memory.read, h]
    · simp [Memory.read, h, ih, Ne.symm h]
theorem Machine.Memory.read_image (d a : Nat) :
    (Memory.image d).read a = if a < 256 then some (Config.resetB d a) else none := by
  simp only [Memory.image, Memory.read_map, List.mem_range]

/- Registers that hold a reset image. -/

theorem readV_of_ofFn {s : State} {f : VReg → Vec} (h : s.v = Vector.ofFn f) (i : VReg) : s.readV i = f i := by
  simp [State.readV, h, Vector.get_eq_getElem]
theorem readW_of_ofFn {s : State} {f : WReg → Wide} (h : s.w = Vector.ofFn f) (i : WReg) : s.readW i = f i := by
  simp [State.readW, h, Vector.get_eq_getElem]
theorem readX_of_ofFn {s : State} {f : XReg → Limb} (h : s.x = Vector.ofFn f) (i : XReg) : s.readX i = f i := by
  simp [State.readX, h, Vector.get_eq_getElem]

/-- Settles O12: the state Reset leaves, place by place. -/
theorem resetTakesAFreshImage : Obligations.ResetTakesAFreshImage := fun s _ hm =>
  ⟨_, step_cons hm, rfl, readV_of_ofFn rfl, readW_of_ofFn rfl, readX_of_ofFn rfl,
    fun a ha => (Memory.read_image s.draws a).trans (if_pos ha), rfl, rfl, rfl⟩

/-- Settles O13: the reset state, place by place. -/
theorem stateRightAfterReset : Obligations.StateRightAfterReset :=
  ⟨rfl, rfl, readV_of_ofFn rfl, readW_of_ofFn rfl, readX_of_ofFn rfl,
    fun a ha => (Memory.read_image 0 a).trans (if_pos ha),
    fun a ha => (Memory.read_image 0 a).trans (if_neg (Nat.not_lt.2 ha))⟩

/-- Settles O17: the reset state's buffer is a reset image. -/
theorem resetStateHasTheBufferForm : Obligations.ResetStateHasTheBufferForm := Memory.image_wf 0

/- A conversion whose length or range is not legal. -/

section illFormed
variable {s : State} {off len : Nat}

theorem loadV_illFormed {val : List Byte → Nat} {vd : VReg} (h : conversionWellFormed 32 off len = false) :
    loadV val vd off len s = .next { s with ill := true } := by
  simp [loadV, lengthLegal_eq, h, raiseIllegal]
theorem loadW_illFormed {val : List Byte → Nat} {wd : WReg} (h : conversionWellFormed 64 off len = false) :
    loadW val wd off len s = .next { s with ill := true } := by
  simp [loadW, lengthLegal_eq, h, raiseIllegal]
theorem storeBytes_illFormed {n v : Nat} {bytes : Nat → Nat → List Byte} (h : conversionWellFormed n off len = false) :
    storeBytes n bytes v off len s = .next { s with ill := true } := by
  simp [storeBytes, lengthLegal_eq, h, raiseIllegal]

end illFormed

/-- Settles O22: only conversions can be ill formed, and each then raises Illegal. -/
theorem illFormedCommandsRaiseIllegal : Obligations.IllFormedCommandsRaiseIllegal := fun i s hi => by
  cases i with
  | vldbe | vldle => exact loadV_illFormed hi
  | wldbe | wldle => exact loadW_illFormed hi
  | vstbe | vstle | wstbe | wstle => exact storeBytes_illFormed hi
  | _ => cases hi

end Sys2Proof
end

section
/-! SUPPORT. The flag and the select mask (40_ct_primitives.md R104, R117, 30_encoding.md R74). -/
namespace Sys2Proof

open Sys2Proof.Machine

/-- Settles O29: both flags say whether the vector is zero. -/
theorem zeroTestIsEqualityWithZero : Obligations.ZeroTestIsEqualityWithZero := fun s xd va vz hz => by
  rw [exec_visz, exec_veq, hz]

/-- Shifting a limb down by 63 leaves its top bit. -/
theorem ushiftRight_63_eq (l : Limb) : l >>> 63 = if l.msb then 1 else 0 := by
  apply BitVec.eq_of_toNat_eq
  have hl := l.isLt
  rw [BitVec.toNat_ushiftRight, Nat.shiftRight_eq_div_pow]
  cases h : l.msb with
  | false => exact Nat.div_eq_of_lt (BitVec.toNat_lt_of_msb_false h)
  | true =>
    have htop : 2 ^ 63 ≤ l.toNat := BitVec.toNat_ge_of_msb_true h
    have hdiv : l.toNat / 2 ^ 63 = 1 := by omega
    exact hdiv

/-- A limb is zero exactly when its top bit is clear and subtracting 1 sets it. -/
theorem msb_bitwise_zero_test (l : Limb) : (~~~l &&& (l - 1)).msb = decide (l = 0) := by
  by_cases h : l = 0
  · subst h; decide
  · have hpred : (l - 1).toNat = l.toNat - 1 := by bv_omega
    have hclear : l.msb = false → (l - 1).msb = false := by
      simp only [BitVec.msb_eq_decide, hpred, decide_eq_false_iff_not]
      omega
    rw [BitVec.msb_and, BitVec.msb_not, decide_eq_false h]
    simpa using hclear

/-- Settles O30: the top bit of the branch-free form, shifted down, is the flag. -/
theorem bitwiseZeroTestIsTheFlag : Obligations.BitwiseZeroTestIsTheFlag := fun l => by
  rw [isZeroBitwise, ushiftRight_63_eq, msb_bitwise_zero_test, isZero_eq]
  simp only [decide_eq_true_eq]

theorem selectMask_eq (n : Nat) (c : Bool) : selectMask n c = if c then BitVec.allOnes n else 0 := by
  cases c with
  | false => simp [selectMask]
  | true => simp [selectMask, BitVec.neg_one_eq_allOnes]

theorem select_selectMask {n : Nat} (c : Bool) (a b : BitVec n) : select (selectMask n c) a b = if c then a else b := by
  rw [selectMask_eq]
  cases c with
  | false => simp [select]
  | true => simp [select]

/-- Settles O31: `0 - 0` is all zeros and `0 - 1` all ones, and each mask keeps one operand. -/
theorem selectMaskChooses : Obligations.SelectMaskChooses := fun n c a b => ⟨selectMask_eq n c, select_selectMask c a b⟩

end Sys2Proof
end

section
/-! SUPPORT. Two conversions in a row, in two byte orders, or at two widths (41_byte_conversions.md R143, R146, R147). -/
namespace Sys2Proof

open Sys2Proof.Machine

section roundTrip
variable {val : List Byte → Nat} {bytes : Nat → Nat → List Byte} {pos : Nat → Nat → Nat}
  (ho : ByteOrder val bytes pos) {s : State} {off : Off} {len : Len} (hi : BufferFormed s) (h1 : 1 ≤ len.val)
  (h3 : off.val + len.val ≤ 256)
include ho hi h1 h3

/-- A load and a store of the same register, length and order write back the bytes that were read. -/
theorem ByteOrder.loadV_storeBytes (off' : Off) (h3' : off'.val + len.val ≤ 256) (h2 : len.val ≤ 32) (r : VReg) :
    ∃ t u, loadV val r off len s = .next t ∧ storeBytes 32 bytes (t.readV r).toNat off' len t = .next u ∧
      ∀ j, j < len.val → u.b.read (off' + j) = s.b.read (off + j) := by
  obtain ⟨bs, hb, hload, hval⟩ := loadV_spec ho.val_lt r hi h1 h2 h3
  obtain ⟨u, hstore, -, hwritten⟩ := ho.storeBytes_writes (s := s.writeV r (BitVec.ofNat 256 (val bs))) hi h1 h3' h2 (val bs)
  obtain ⟨-, hread⟩ := ho.val_of_readBytes hb
  refine ⟨_, u, hload, ?_, fun j hj => (hwritten j hj).trans (hread j hj).symm⟩
  rw [readV_writeV_same, hval, hstore]
/-- The same with a W register. -/
theorem ByteOrder.loadW_storeBytes (off' : Off) (h3' : off'.val + len.val ≤ 256) (h2 : len.val ≤ 64) (r : WReg) :
    ∃ t u, loadW val r off len s = .next t ∧ storeBytes 64 bytes (t.readW r).toNat off' len t = .next u ∧
      ∀ j, j < len.val → u.b.read (off' + j) = s.b.read (off + j) := by
  obtain ⟨bs, hb, hload, hval⟩ := loadW_spec ho.val_lt r hi h1 h2 h3
  obtain ⟨u, hstore, -, hwritten⟩ := ho.storeBytes_writes (s := s.writeW r (BitVec.ofNat 512 (val bs))) hi h1 h3' h2 (val bs)
  obtain ⟨-, hread⟩ := ho.val_of_readBytes hb
  refine ⟨_, u, hload, ?_, fun j hj => (hwritten j hj).trans (hread j hj).symm⟩
  rw [readW_writeW_same, hval, hstore]

variable (hvb : ∀ v n, val (bytes v n) = v % 256 ^ n)
include hvb

/-- The bytes that a store leaves, read again, are the value modulo `256 ^ len`. -/
theorem ByteOrder.storeBytes_readBytes {n : Nat} (h2 : len.val ≤ n) (v : Nat) :
    ∃ m, storeBytes n bytes v off len s = .next { s with b := m } ∧ m.wf ∧
      ∀ bs, m.readBytes off len = some bs → val bs = v % 256 ^ len.val := by
  obtain ⟨m, hstore, -, hm, hwritten⟩ := storeBytes_spec ho.length_bytes ho.bytes_mod v hi h1 h2 h3
  refine ⟨m, hstore, hm, fun bs hbs => ?_⟩
  obtain ⟨hlen, hread⟩ := Memory.readBytes_spec hbs
  have hsame : bs = bytes v len := by
    refine List.ext_getElem? fun j => ?_
    by_cases hj : j < len.val
    · rw [hread j hj, hwritten j hj]
    · rw [List.getElem?_eq_none (by omega), List.getElem?_eq_none (by rw [ho.length_bytes]; omega)]
  rw [hsame, hvb]

/-- A store and a load of the same length and order restore the value iff it is below `256 ^ len`. -/
theorem ByteOrder.storeBytes_loadV (h2 : len.val ≤ 32) (a : Vec) (r : VReg) :
    ∃ t u, storeBytes 32 bytes a.toNat off len s = .next t ∧ loadV val r off len t = .next u ∧
      (u.readV r = a ↔ a.toNat < 256 ^ len.val) := by
  obtain ⟨m, hstore, hm, hval⟩ := ho.storeBytes_readBytes hi h1 h3 hvb h2 a.toNat
  obtain ⟨bs, hb, hload, hfits⟩ := loadV_spec (s := { s with b := m }) ho.val_lt r hm h1 h2 h3
  refine ⟨_, _, hstore, hload, ?_⟩
  rw [readV_writeV_same, ← BitVec.toNat_inj, hfits, hval bs hb]
  exact Nat.mod_eq_iff_lt (by positivity)
theorem ByteOrder.storeBytes_loadW (h2 : len.val ≤ 64) (a : Wide) (r : WReg) :
    ∃ t u, storeBytes 64 bytes a.toNat off len s = .next t ∧ loadW val r off len t = .next u ∧
      (u.readW r = a ↔ a.toNat < 256 ^ len.val) := by
  obtain ⟨m, hstore, hm, hval⟩ := ho.storeBytes_readBytes hi h1 h3 hvb h2 a.toNat
  obtain ⟨bs, hb, hload, hfits⟩ := loadW_spec (s := { s with b := m }) ho.val_lt r hm h1 h2 h3
  refine ⟨_, _, hstore, hload, ?_⟩
  rw [readW_writeW_same, ← BitVec.toNat_inj, hfits, hval bs hb]
  exact Nat.mod_eq_iff_lt (by positivity)

end roundTrip

/-- Settles O36: the digits that the store writes are those of the integer that the load made of the bytes. -/
theorem loadThenStoreWritesTheBytesBack : Obligations.LoadThenStoreWritesTheBytesBack := fun _ _ off' _ hi h1 h3 h3' =>
  ⟨fun h2 r => ⟨byteOrder_be.loadV_storeBytes hi h1 h3 off' h3' h2 r, byteOrder_le.loadV_storeBytes hi h1 h3 off' h3' h2 r⟩,
    fun h2 r => ⟨byteOrder_be.loadW_storeBytes hi h1 h3 off' h3' h2 r, byteOrder_le.loadW_storeBytes hi h1 h3 off' h3' h2 r⟩⟩

/-- Settles O37: the value comes back modulo `256 ^ len`. -/
theorem storeThenLoadRestoresSmallValues : Obligations.StoreThenLoadRestoresSmallValues := fun _ _ _ hi h1 h3 =>
  ⟨fun h2 _ r' => ⟨byteOrder_be.storeBytes_loadV hi h1 h3 beVal_beBytes h2 _ r',
      byteOrder_le.storeBytes_loadV hi h1 h3 leVal_leBytes h2 _ r'⟩,
    fun h2 _ r' => ⟨byteOrder_be.storeBytes_loadW hi h1 h3 beVal_beBytes h2 _ r',
      byteOrder_le.storeBytes_loadW hi h1 h3 leVal_leBytes h2 _ r'⟩⟩

/-- Two runs of bytes of which one is the other read from its far end. -/
theorem Machine.Memory.readBytes_eq_reverse {m m' : Memory} {a a' n : Nat} {bs bs' : List Byte}
    (hb : m.readBytes a n = some bs) (hb' : m'.readBytes a' n = some bs')
    (h : ∀ j, j < n → m'.read (a' + j) = m.read (a + (n - 1 - j))) : bs' = bs.reverse := by
  obtain ⟨rfl, hread⟩ := Memory.readBytes_spec hb
  obtain ⟨hlen, hread'⟩ := Memory.readBytes_spec hb'
  refine List.ext_getElem? fun j => ?_
  by_cases hj : j < bs.length
  · rw [hread' j hj, h j hj, List.getElem?_reverse hj, hread _ (by omega)]
  · rw [List.getElem?_eq_none (by omega), List.getElem?_eq_none (by simpa using hj)]

/-- Settles O38: byte j has the same weight in one order as byte `len - 1 - j` in the other. -/
theorem byteOrdersAreReversals : Obligations.ByteOrdersAreReversals := by
  refine fun s off len hi h1 h2 h3 => ⟨fun r => ?_, fun s' off' r r' hi' h3' hrev => ?_⟩
  · obtain ⟨t, ht, -, hbe⟩ := byteOrder_be.storeBytes_writes hi h1 h3 h2 (s.readV r).toNat
    obtain ⟨u, hu, -, hle⟩ := byteOrder_le.storeBytes_writes hi h1 h3 h2 (s.readV r).toNat
    refine ⟨t, u, ht, hu, fun j hj => ?_⟩
    have hpos : len.val - 1 - (len.val - 1 - j) = j := by omega
    rw [hle j hj, hbe _ (by omega), hpos]
  · obtain ⟨bs, hb, ht, -⟩ := loadV_spec leVal_lt r hi h1 h2 h3
    obtain ⟨bs', hb', hu, -⟩ := loadV_spec beVal_lt r' hi' h1 h2 h3'
    refine ⟨_, _, ht, hu, ?_⟩
    rw [readV_writeV_same, readV_writeV_same, Memory.readBytes_eq_reverse hb hb' hrev, beVal_reverse]

section widths
variable {s : State} {off : Off} {len : Len} (h1 : 1 ≤ len.val) (h2 : len.val ≤ 32) (h3 : off.val + len.val ≤ 256)
include h1 h2 h3

/-- A load of up to 32 bytes gives the same integer at both widths. -/
theorem loadV_loadW_agree {val : List Byte → Nat} (hv : ∀ bs, val bs < 256 ^ bs.length) (hi : BufferFormed s) (r : VReg)
    (q : WReg) :
    ∃ t u, loadV val r off len s = .next t ∧ loadW val q off len s = .next u ∧ (t.readV r).toNat = (u.readW q).toNat := by
  obtain ⟨bs, hb, ht, hfits⟩ := loadV_spec hv r hi h1 h2 h3
  obtain ⟨bs', hb', hu, hfits'⟩ := loadW_spec hv q hi h1 (by omega) h3
  obtain rfl : bs = bs' := Option.some.inj (hb.symm.trans hb')
  refine ⟨_, _, ht, hu, ?_⟩
  rw [readV_writeV_same, readW_writeW_same, hfits, hfits']
/-- A store of up to 32 bytes of one value is the same at both widths. -/
theorem storeBytes_widths_agree (bytes : Nat → Nat → List Byte) (v : Nat) :
    storeBytes 32 bytes v off len s = storeBytes 64 bytes v off len s := by
  simp only [storeBytes, lengthLegal_of h1 h2 h3, lengthLegal_of h1 (show len.val ≤ 64 by omega) h3]

end widths

/-- Settles O39: the width enters a conversion only by its largest length. -/
theorem vAndWFormsAgree : Obligations.VAndWFormsAgree := by
  refine fun s off len hi h1 h2 h3 r q => ⟨loadV_loadW_agree h1 h2 h3 beVal_lt hi r q,
    loadV_loadW_agree h1 h2 h3 leVal_lt hi r q, fun hsame _ => ?_⟩
  have store (bytes : Nat → Nat → List Byte) : storeBytes 32 bytes (s.readV r).toNat off len s =
      storeBytes 64 bytes (s.readW q).toNat off len s := by
    rw [hsame, storeBytes_widths_agree h1 h2 h3]
  exact ⟨store beBytes, store leBytes⟩

end Sys2Proof
end

section
/-! SUPPORT. Identities between engine commands in domain (42_montgomery_engine.md R156, R162 to R168, R176): a reduced value
is unique, so it is enough that two commands reduce congruent numbers. -/
namespace Sys2Proof

open Sys2Proof.Machine

/-- Only the number's class modulo m counts for its reduced value. -/
theorem isReduced_congr {r T T' m : Nat} (h : T ≡ T' [MOD m]) : IsReduced r T m ↔ IsReduced r T' m := by
  rw [IsReduced, IsReduced, show T % m = T' % m from h]

/-- Two registers that hold the reduced value of one number are equal. -/
theorem vec_eq_of_isReduced {a b : Vec} {T m : Nat} (hm : m % 2 = 1) (ha : IsReduced a.toNat T m)
    (hb : IsReduced b.toNat T m) : a = b :=
  BitVec.eq_of_toNat_eq (isReduced_unique hm ha hb)

/-- A residue is the reduced value of its product with 2^256. -/
theorem isReduced_mul_pow {x m : Nat} (hx : x < m) : IsReduced x (x * 2 ^ 256) m := ⟨hx, rfl⟩

theorem montForm_modEq (x m : Nat) : montForm x m ≡ x * 2 ^ 256 [MOD m] := Nat.mod_modEq _ _

theorem montForm_lt {x m : Nat} (hm : 0 < m) : montForm x m < m := Nat.mod_lt _ hm

/-- The Montgomery form of x is the reduced value of x times R² modulo m. -/
theorem isReduced_montForm {x r2 m : Nat} (hm : 0 < m) (hr : r2 = 2 ^ 256 * 2 ^ 256 % m) :
    IsReduced (montForm x m) (x * r2) m := by
  refine ⟨montForm_lt hm, ?_⟩
  have hr2 : r2 ≡ 2 ^ 256 * 2 ^ 256 [MOD m] := hr ▸ Nat.mod_modEq _ _
  calc montForm x m * 2 ^ 256
    _ ≡ x * 2 ^ 256 * 2 ^ 256 [MOD m] := (montForm_modEq x m).mul_right _
    _ = x * (2 ^ 256 * 2 ^ 256) := Nat.mul_assoc ..
    _ ≡ x * r2 [MOD m] := hr2.symm.mul_left x

/-- The Montgomery form of a product is the reduced product of the Montgomery forms. -/
theorem isReduced_montForm_mul {x y m : Nat} (hm : 0 < m) :
    IsReduced (montForm (x * y % m) m) (montForm x m * montForm y m) m := by
  refine ⟨montForm_lt hm, ?_⟩
  calc montForm (x * y % m) m * 2 ^ 256
    _ ≡ x * y % m * 2 ^ 256 * 2 ^ 256 [MOD m] := (montForm_modEq _ m).mul_right _
    _ ≡ x * y * 2 ^ 256 * 2 ^ 256 [MOD m] := ((Nat.mod_modEq (x * y) m).mul_right _).mul_right _
    _ = x * 2 ^ 256 * (y * 2 ^ 256) := by ring
    _ ≡ montForm x m * montForm y m [MOD m] := ((montForm_modEq x m).mul (montForm_modEq y m)).symm

/- Values in domain, by the number that they reduce. -/

section values
variable {a b m : Vec} {n0 : Limb}

theorem mulValue_eq_of_isReduced {r : Vec} (hd : MulDomain a b m n0) (hr : IsReduced r.toNat (a.toNat * b.toNat) m.toNat) :
    mulValue a b m n0 = r :=
  vec_eq_of_isReduced hd.1.1 ((mulValue_spec a b m n0).1 hd) hr
theorem redValue_eq_of_isReduced {T : Wide} {r : Vec} (hd : RedDomain T m n0) (hr : IsReduced r.toNat T.toNat m.toNat) :
    redValue T m n0 = r :=
  vec_eq_of_isReduced hd.1.1 ((redValue_spec T m n0).1 hd) hr
theorem fromValue_eq_of_isReduced {r : Vec} (hd : OneDomain a m n0) (hr : IsReduced r.toNat a.toNat m.toNat) :
    fromValue a m n0 = r :=
  vec_eq_of_isReduced hd.1.1 ((fromValue_spec a m n0).1 hd) hr

/-- The product of two residues is in MRED's domain (42_montgomery_engine.md R161). -/
theorem mul_lt_mul_pow (hd : MulDomain a b m n0) : a.toNat * b.toNat < m.toNat * 2 ^ 256 :=
  Nat.mul_lt_mul_of_lt_of_le hd.2.1 b.isLt.le (by positivity)

end values

/-- Settles O48: both are the reduced product of the Montgomery forms. -/
theorem montgomeryFormsMultiply : Obligations.MontgomeryFormsMultiply := by
  intro s vd va vb vm xn x y hm _ _ ha hb
  have hpos : 0 < (s.readV vm).toNat := by omega
  refine ⟨_, exec_mmul s vd va vb vm xn, ?_⟩
  have hd : MulDomain (s.readV va) (s.readV vb) (s.readV vm) (s.readX xn) :=
    ⟨hm, ha ▸ montForm_lt hpos, hb ▸ montForm_lt hpos⟩
  have hv := (mulValue_spec _ _ _ _).1 hd
  rw [ha, hb] at hv
  rw [readV_writeV_same]
  exact isReduced_unique hm.1 hv (isReduced_montForm_mul hpos)

/-- In domain MMUL by R² mod m writes the Montgomery form. -/
theorem mulValue_toMontForm {a r2 m : Vec} {n0 : Limb} (hm : ModulusOk m n0) (ha : a.toNat < m.toNat)
    (hr : r2.toNat = 2 ^ 256 * 2 ^ 256 % m.toNat) : (mulValue a r2 m n0).toNat = montForm a.toNat m.toNat := by
  have hpos : 0 < m.toNat := by omega
  have hd : MulDomain a r2 m n0 := ⟨hm, ha, hr ▸ Nat.mod_lt _ hpos⟩
  exact isReduced_unique hm.1 ((mulValue_spec a r2 m n0).1 hd) (isReduced_montForm hpos hr)

/-- Settles O49: the residue is the one reduced value of its Montgomery form. -/
theorem montgomeryFormRoundTrip : Obligations.MontgomeryFormRoundTrip := by
  intro s vd ve va vr vm xn hm ha hr hne
  have hto := mulValue_toMontForm hm ha hr
  refine ⟨_, _, exec_mmul s vd va vr vm xn, exec_mfrom _ ve vd vm xn, by rw [readV_writeV_same, hto], ?_⟩
  rw [readV_writeV_same, readV_writeV_same, readX_writeV, readV_writeV_ne s hne.symm]
  have hd : OneDomain (mulValue (s.readV va) (s.readV vr) (s.readV vm) (s.readX xn)) (s.readV vm) (s.readX xn) :=
    ⟨hm, hto ▸ montForm_lt (by omega)⟩
  refine fromValue_eq_of_isReduced hd ?_
  rw [hto, isReduced_congr (montForm_modEq _ _)]
  exact isReduced_mul_pow ha

/-- Settles O50: both reduce the exact product, which is in MRED's domain. -/
theorem multiplicationIsProductThenReduction : Obligations.MultiplicationIsProductThenReduction := by
  intro s vd va vb vm wa xn hd hw
  have hred : RedDomain (s.readW wa) (s.readV vm) (s.readX xn) := ⟨hd.1, hw ▸ mul_lt_mul_pow hd⟩
  have hv := (redValue_spec _ _ _).1 hred
  rw [hw] at hv
  rw [exec_mmul, exec_mred, mulValue_eq_of_isReduced hd hv]

/-- Settles O51: multiplying by one and extending with zeros do not change the number that is reduced. -/
theorem mfromIsMultiplicationByOne : Obligations.MfromIsMultiplicationByOne := by
  intro s vd va v1 vm wa xn hd
  obtain ⟨hm, ha⟩ := hd
  rw [exec_mfrom, exec_mmul, exec_mred]
  refine ⟨fun h1 => ?_, fun hw => ?_⟩
  · have hone : (s.readV v1).toNat = 1 := h1 ▸ rfl
    have hmul : MulDomain (s.readV va) (s.readV v1) (s.readV vm) (s.readX xn) := ⟨hm, ha, by omega⟩
    have hv := (mulValue_spec _ _ _ _).1 hmul
    rw [hone, Nat.mul_one] at hv
    rw [fromValue_eq_of_isReduced ⟨hm, ha⟩ hv]
  · have htoNat : (s.readW wa).toNat = (s.readV va).toNat := by
      rw [hw, BitVec.toNat_setWidth_of_le (by decide)]
    have hred : RedDomain (s.readW wa) (s.readV vm) (s.readX xn) := ⟨hm, by omega⟩
    have hv := (redValue_spec _ _ _).1 hred
    rw [fromValue_eq_of_isReduced ⟨hm, ha⟩ (htoNat ▸ hv)]

theorem montForm_add (x y m : Nat) : (montForm x m + montForm y m) % m = montForm ((x + y) % m) m := by
  calc montForm x m + montForm y m
    _ ≡ x * 2 ^ 256 + y * 2 ^ 256 [MOD m] := (montForm_modEq x m).add (montForm_modEq y m)
    _ = (x + y) * 2 ^ 256 := (Nat.add_mul ..).symm
    _ ≡ (x + y) % m * 2 ^ 256 [MOD m] := (Nat.mod_modEq (x + y) m).symm.mul_right _

/-- Both differences, with the second form added again, are the first form. -/
theorem montForm_sub {x y m : Nat} (hm : 0 < m) (hy : y < m) :
    (montForm x m + m - montForm y m) % m = montForm ((x + m - y) % m) m := by
  have hlt : montForm y m < m := montForm_lt hm
  refine Nat.ModEq.add_right_cancel' (montForm y m) ?_
  calc montForm x m + m - montForm y m + montForm y m
    _ = montForm x m + m := by omega
    _ ≡ x * 2 ^ 256 + m * 2 ^ 256 [MOD m] := (montForm_modEq x m).add (by simp [Nat.ModEq])
    _ = (x + m - y) * 2 ^ 256 + y * 2 ^ 256 := by rw [← Nat.add_mul, ← Nat.add_mul, Nat.sub_add_cancel (by omega)]
    _ ≡ (x + m - y) % m * 2 ^ 256 + montForm y m [MOD m] :=
        ((Nat.mod_modEq _ m).symm.mul_right _).add (montForm_modEq y m).symm

/-- Settles O52: multiplying by 2^256 modulo m commutes with the sum and the difference. -/
theorem montgomeryFormIsLinear : Obligations.MontgomeryFormIsLinear := by
  intro s vd va vb vm x y hodd h3 hx hy ha hb
  have hpos : 0 < (s.readV vm).toNat := by omega
  have hd : AddDomain (s.readV va) (s.readV vb) (s.readV vm) := ⟨⟨hodd, h3⟩, ha ▸ montForm_lt hpos, hb ▸ montForm_lt hpos⟩
  refine ⟨⟨_, exec_madd s vd va vb vm, ?_⟩, ⟨_, exec_msub s vd va vb vm, ?_⟩⟩
  · rw [readV_writeV_same, (addValue_spec _ _ _).1 hd, ha, hb, montForm_add]
  · rw [readV_writeV_same, (subValue_spec _ _ _).1 hd, ha, hb, montForm_sub hpos hy]

/-- Settles O53: MRED leaves the reduced value of x, below m, and its Montgomery form is x modulo m. -/
theorem anyValueIsReducedThroughMred : Obligations.AnyValueIsReducedThroughMred := by
  intro s vd vt vr vm wx xn hm hx hr hvm hvr
  have hd : RedDomain (s.readW wx) (s.readV vm) (s.readX xn) :=
    ⟨hm, hx.trans_le (Nat.le_mul_of_pos_left _ (by omega))⟩
  have hred := (redValue_spec _ _ _).1 hd
  refine ⟨_, _, exec_mred s vt wx vm xn, exec_mmul _ vd vt vr vm xn, ?_⟩
  rw [readV_writeV_same, readV_writeV_same, readX_writeV, readV_writeV_ne s hvm.symm, readV_writeV_ne s hvr.symm,
    mulValue_toMontForm hm hred.1 hr]
  exact hred.2

end Sys2Proof
end

section
/-! SUPPORT. The computations inside the engine (42_montgomery_engine.md R152, R153, R157, R166, R170): the word-serial
reduction, the masked sum and difference and the Newton iteration meet the contracts of the commands. -/
namespace Sys2Proof

open Sys2Proof.Machine

/-- The four steps make the low 256 bits zero, keep the value modulo m and add less than `2 ^ 256 * m`. -/
theorem redcLoop_spec {T m n0 : Nat} (hn : m * n0 % 2 ^ 64 = 2 ^ 64 - 1) :
    2 ^ 256 ∣ redcLoop T m n0 ∧ redcLoop T m n0 % m = T % m ∧ redcLoop T m n0 ≤ T + (2 ^ 256 - 1) * m := by
  obtain ⟨dvd₀, mod₀, le₀⟩ := redcStep_spec (T := T) (i := 0) hn (one_dvd T)
  obtain ⟨dvd₁, mod₁, le₁⟩ := redcStep_spec (i := 1) hn dvd₀
  obtain ⟨dvd₂, mod₂, le₂⟩ := redcStep_spec (i := 2) hn dvd₁
  obtain ⟨dvd₃, mod₃, le₃⟩ := redcStep_spec (i := 3) hn dvd₂
  refine ⟨dvd₃, mod₃.trans (mod₂.trans (mod₁.trans mod₀)), ?_⟩
  rw [redcLoop]
  omega

/-- Before the final subtraction the value is below 2m, so it fits 257 bits. -/
theorem redcLoop_div_lt {T m n0 : Nat} (hn : m * n0 % 2 ^ 64 = 2 ^ 64 - 1) (hT : T < m * 2 ^ 256) :
    redcLoop T m n0 / 2 ^ 256 < 2 * m := by
  obtain ⟨-, -, hle⟩ := redcLoop_spec (T := T) hn
  rw [Nat.div_lt_iff_lt_mul (by positivity)]
  omega

/-- The masked final subtraction of m from a 257-bit value below 2m is the reduction modulo m (42_montgomery_engine.md R157,
R167). -/
theorem maskedSub_toNat {t : BitVec 257} {m : Vec} (h : t.toNat < 2 * m.toNat) :
    ((select (selectMask 257 (decide (m.setWidth 257 ≤ t))) (t - m.setWidth 257) t).setWidth 256).toNat =
      t.toNat % m.toNat := by
  have hm := m.isLt
  have hwide : (m.setWidth 257).toNat = m.toNat := BitVec.toNat_setWidth_of_le (by decide)
  simp only [select_selectMask, BitVec.le_def, hwide, decide_eq_true_eq]
  by_cases hle : m.toNat ≤ t.toNat
  · have hsub : (t - m.setWidth 257).toNat = t.toNat - m.toNat := by
      rw [BitVec.toNat_sub_of_le (by rwa [BitVec.le_def, hwide]), hwide]
    rw [if_pos hle, BitVec.toNat_setWidth, hsub, Nat.mod_eq_sub_mod hle, Nat.mod_eq_of_lt (by omega),
      Nat.mod_eq_of_lt (by omega)]
  · rw [if_neg hle, BitVec.toNat_setWidth, Nat.mod_eq_of_lt (by omega), Nat.mod_eq_of_lt (by omega)]

/-- The word-serial reduction meets the contract on MRED's whole domain. -/
theorem isReduced_redc {T : Nat} {m : Vec} {n0 : Limb} (hm : ModulusOk m n0) (hT : T < m.toNat * 2 ^ 256) :
    IsReduced (redc T m n0).toNat T m.toNat := by
  obtain ⟨_, h3, hn⟩ := hm
  have hpos : 0 < m.toNat := by omega
  have hlt := redcLoop_div_lt hn hT
  obtain ⟨hdvd, hmod, -⟩ := redcLoop_spec (T := T) hn
  have hbv : (BitVec.ofNat 257 (redcLoop T m.toNat n0.toNat / 2 ^ 256)).toNat = redcLoop T m.toNat n0.toNat / 2 ^ 256 := by
    rw [BitVec.toNat_ofNat]
    exact Nat.mod_eq_of_lt (by have := m.isLt; omega)
  have hredc : (redc T m n0).toNat = redcLoop T m.toNat n0.toNat / 2 ^ 256 % m.toNat := by
    rw [redc, maskedSub_toNat (hbv.trans_lt hlt), hbv]
  refine hredc ▸ ⟨Nat.mod_lt _ hpos, ?_⟩
  rw [Nat.mod_mul_mod, Nat.div_mul_cancel hdvd, hmod]

/-- Settles O54: by what the four steps do to T, and the masked subtraction. -/
theorem referenceReductionMeetsTheContract : Obligations.ReferenceReductionMeetsTheContract := fun T m n0 hm hT => by
  have ⟨_, _, hn⟩ := hm
  obtain ⟨hdvd, -, -⟩ := redcLoop_spec (T := T) hn
  exact ⟨Nat.mod_eq_zero_of_dvd hdvd, redcLoop_div_lt hn hT, isReduced_redc hm hT⟩

/-- Settles O55: what a command and the word-serial reduction write reduces the same number. -/
theorem engineWritesTheReferenceReduction : Obligations.EngineWritesTheReferenceReduction := by
  refine fun s vd va vb vm wa xn => ⟨fun hd => ?_, fun hd => ?_, fun hd => ?_⟩
  · rw [exec_mmul, mulValue_eq_of_isReduced hd (isReduced_redc hd.1 (mul_lt_mul_pow hd))]
  · rw [exec_mred, redValue_eq_of_isReduced hd (isReduced_redc hd.1 hd.2)]
  · have hT : (s.readV va).toNat < (s.readV vm).toNat * 2 ^ 256 := hd.2.trans_le (Nat.le_mul_of_pos_right _ (by positivity))
    rw [exec_mfrom, fromValue_eq_of_isReduced hd (isReduced_redc hd.1 hT)]

/-- In domain the 257-bit sum is exact and below 2m. -/
theorem addValue_eq_addDatapath {a b m : Vec} (hd : AddDomain a b m) : addValue a b m = addDatapath a b m := by
  have ⟨_, ha, hb⟩ := hd
  have hm := m.isLt
  have hsum : (a.setWidth 257 + b.setWidth 257).toNat = a.toNat + b.toNat := by
    simp only [BitVec.toNat_add, BitVec.toNat_setWidth]
    omega
  apply BitVec.eq_of_toNat_eq
  rw [(addValue_spec a b m).1 hd, addDatapath, maskedSub_toNat (by omega), hsum]

/-- In domain the masked difference is the difference, or the difference plus m where it would borrow. -/
theorem subValue_eq_subDatapath {a b m : Vec} (hd : AddDomain a b m) : subValue a b m = subDatapath a b m := by
  have ⟨_, ha, hb⟩ := hd
  have hm := m.isLt
  apply BitVec.eq_of_toNat_eq
  rw [(subValue_spec a b m).1 hd, subDatapath, select_selectMask]
  by_cases hlt : a.toNat < b.toNat
  · rw [if_pos (by simpa [borrow, BitVec.lt_def] using hlt), Nat.mod_eq_of_lt (by omega), BitVec.toNat_add, BitVec.toNat_sub]
    omega
  · rw [if_neg (by simpa [borrow, BitVec.lt_def] using hlt), Nat.mod_eq_sub_mod (by omega), Nat.mod_eq_of_lt (by omega),
      add_zero, BitVec.toNat_sub_of_le (by simpa [BitVec.le_def] using hlt)]
    omega

/-- Settles O56, by the two datapaths. -/
theorem sumAndDifferenceAreTheMaskedDatapaths : Obligations.SumAndDifferenceAreTheMaskedDatapaths :=
  fun s vd va vb vm hd => by
    rw [exec_madd, exec_msub, addValue_eq_addDatapath hd, subValue_eq_subDatapath hd]
    exact ⟨rfl, rfl⟩

/- The Newton iteration, in the ring of limbs: the error `1 - m0 * y` of an approximation y of the inverse is squared. -/

theorem one_sub_mul_newtonStep (m0 y : Limb) : 1 - m0 * newtonStep m0 y = (1 - m0 * y) ^ 2 := by
  rw [newtonStep]
  ring

theorem one_sub_mul_iterate_newtonStep (m0 : Limb) (k : Nat) :
    1 - m0 * (newtonStep m0)^[k] 1 = (1 - m0) ^ 2 ^ k := by
  induction k with
  | zero => simp
  | succ k ih => rw [Function.iterate_succ_apply', one_sub_mul_newtonStep, ih, ← pow_mul, ← pow_succ]

/-- The error of the approximation 1 of the inverse of an odd limb is even. -/
theorem two_dvd_one_sub {m0 : Limb} (h : m0.toNat % 2 = 1) : (2 : Limb) ∣ 1 - m0 := by
  refine ⟨-(BitVec.ofNat 64 (m0.toNat / 2)), ?_⟩
  bv_omega

/-- Six doublings of the precision reach 64 bits. -/
theorem even_pow_64 {e : Limb} (h : (2 : Limb) ∣ e) : e ^ 2 ^ 6 = 0 := by
  obtain ⟨k, rfl⟩ := h
  have htwo : (2 : Limb) ^ 2 ^ 6 = 0 := by decide +kernel
  rw [mul_pow, htwo, zero_mul]

/-- Settles O58: after six steps the error is 0, so limb 0 of m times the negated approximation is -1. -/
theorem newtonIterationGivesTheConstant : Obligations.NewtonIterationGivesTheConstant := fun m hm => by
  have hodd : (limbV m 0).toNat % 2 = 1 := by
    rw [limbV_toNat]
    omega
  have herror : 1 - limbV m 0 * (newtonStep (limbV m 0))^[6] 1 = 0 := by
    rw [one_sub_mul_iterate_newtonStep, even_pow_64 (two_dvd_one_sub hodd)]
  have hprod : limbV m 0 * newtonN0 m = -1 := by
    rw [newtonN0, zero_sub, mul_neg, ← sub_eq_zero.1 herror]
  rw [← pN0_limbV_zero, pN0_iff, ← BitVec.toNat_mul, hprod]
  rfl

end Sys2Proof
end
